-- ==== Sys2Proof/Word.lean ====
section
/-! DEFINITION. The word, byte and digest types (00_scope.md R5, R9, R10; 10_state.md R21). -/

namespace Sys2Proof

/-- A register value: an unsigned 32-bit number (R9, R21). -/
abbrev Word := BitVec 32

/-- A byte: an unsigned 8-bit number (R10). -/
abbrev Byte := BitVec 8

/-- The output of `HASH`: 32 bytes, in the order the hash gives them (R5, R142). -/
abbrev Digest := Vector Byte 32

end Sys2Proof
end

