-- ==== Sys2Proof/Config.lean ====
section
/-! DEFINITION. The parameters the source leaves open (00_scope.md R6), which are not state (R7). The lengths it fixes (R5: header 24, command
field 12, checksum 4, register window 4096 bytes) stand as numerals where they are used. -/

namespace Sys2Proof

/-- The open parameters of R6. Every value of this type is a legal choice: `MEM_AW` is 5 and at most 26 more,
`REG_BASE` is a whole number of 4 KiB pages, `MEM_BASE` a whole number of `MEM_BYTES`. -/
structure Params where
  /-- `MEM_AW - 5`. -/
  memAwAbove : Fin 27
  /-- `REG_BASE / 4096`. -/
  regPage : Nat
  /-- `MEM_BASE / MEM_BYTES`. -/
  memPage : Nat
  /-- `HASH`: any total function from byte strings to 32-byte strings (R6, R141). -/
  hash : List Byte → Digest
  deriving Inhabited

/-- `MEM_AW`, from 5 to 31 (R6). -/
def Params.memAw (c : Params) : Nat := c.memAwAbove.val + 5

/-- `MEM_BYTES = 2^MEM_AW` (R6, R60), written as the 32 bytes that every legal size has and the rest, so that a range
check within them is decided without knowing `MEM_AW`; `Params.memBytes_eq` says it is `2^MEM_AW` (log entry 21). -/
def Params.memBytes (c : Params) : Nat := (2 ^ c.memAw - 32) + 32

/-- `REG_BASE`, 4 KiB aligned (R6). -/
def Params.regBase (c : Params) : Nat := c.regPage * 4096

/-- `MEM_BASE`, `MEM_BYTES` aligned (R6). -/
def Params.memBase (c : Params) : Nat := c.memPage * c.memBytes

/-- The parameters of this block: an uninterpreted constant, so whatever is proved holds for every `HASH`, `MEM_AW`,
`REG_BASE` and `MEM_BASE` that R6 allows (log entries 1, 2, 3). -/
opaque Config.params : Params

theorem Params.memAw_range (c : Params) : 5 ≤ c.memAw ∧ c.memAw ≤ 31 := by
  have h := c.memAwAbove.isLt
  unfold Params.memAw
  omega

theorem Params.memBytes_eq (c : Params) : c.memBytes = 2 ^ c.memAw := by
  have h : 2 ^ 5 ≤ 2 ^ c.memAw := Nat.pow_le_pow_right (by decide) c.memAw_range.1
  unfold Params.memBytes
  omega

theorem Params.memBytes_ge (c : Params) : 32 ≤ c.memBytes := Nat.le_add_left _ _

theorem Params.memBytes_le (c : Params) : c.memBytes ≤ 2 ^ 31 := by
  rw [c.memBytes_eq]
  exact Nat.pow_le_pow_right (by decide) c.memAw_range.2

end Sys2Proof
end

