-- ==== Sys2Proof/Syntax.lean ====
section
/-! DEFINITION. The four commands of the block (00_scope.md R2, 30_encoding.md R91; spec/opcode_table.json). -/

namespace Sys2Proof

/-- A decoded command, as the latched operation `LOP` holds it (10_state.md R46): one constructor per row of the
opcode table. Every operand but VERIFY's two presence bits is a register (R90). -/
inductive Instr where
  /-- PARSE: `parse_header` (R120). -/
  | parse
  /-- CKSUM: `compute_checksum` (R143). -/
  | cksum
  /-- VERIFY: `is_valid` (R144); `m` says the message is present, `p` that its payload is (R92). -/
  | verify (m p : Bool)
  /-- FRAME: `frame` (R171). -/
  | frame
  deriving DecidableEq, Repr

end Sys2Proof
end

