-- ==== Sys2Proof/Decode.lean ====
section
/-! DEFINITION. The command word: `decode` as 30_encoding.md R93 writes it, total, and the encoder of R105. -/

namespace Sys2Proof

/-- Why a word is illegal, in the three classes of R94. The machine reports one error for all of them (R202); the names are
for the reader (log entry 20). -/
inductive IllegalWord where
  /-- OP is 0 or 5 to 15 (R91). -/
  | noSuchOp
  /-- A bit that must be 0 for every command is set: bits 7:4 or 31:10 (R90). -/
  | reservedBit
  /-- M or P is set and OP is not VERIFY (R92). -/
  | presenceBit
  deriving DecidableEq, Repr

/-- What a command word decodes to. -/
inductive Decoded where
  | legal (i : Instr)
  | illegal (why : IllegalWord)
  deriving DecidableEq, Repr

/-- The field OP, bits 3:0 (R90). -/
def opField (w : Word) : BitVec 4 := w.extractLsb' 0 4

/-- The field M, bit 8 (R90). -/
def mField (w : Word) : Bool := w.getLsbD 8

/-- The field P, bit 9 (R90). -/
def pField (w : Word) : Bool := w.getLsbD 9

/-- Which class of R94 an illegal word falls in. -/
def illegalClass (w : Word) : IllegalWord :=
  if opField w = 0 ∨ 5 ≤ (opField w).toNat then .noSuchOp
  else if w &&& 0xFFFFFCF0#32 ≠ 0 then .reservedBit
  else .presenceBit

/-- `decode(w)` (R93). -/
def decode (w : Word) : Decoded :=
  if w = 0x00000001#32 then .legal .parse
  else if w = 0x00000002#32 then .legal .cksum
  else if w &&& 0xFFFFFCFF#32 = 0x00000003#32 then .legal (.verify (mField w) (pField w))
  else if w = 0x00000004#32 then .legal .frame
  else .illegal (illegalClass w)

/-- The command word of a command (R105): VERIFY's is `0x00000003 OR (m << 8) OR (p << 9)`. -/
def encode : Instr → Word
  | .parse => 0x00000001#32
  | .cksum => 0x00000002#32
  | .verify m p => 0x00000003#32 ||| ((if m then 1#32 else 0#32) <<< 8) ||| ((if p then 1#32 else 0#32) <<< 9)
  | .frame => 0x00000004#32

/-- What `decode` reads from an instruction of `nbits` bits whose bits are `w`, every bit above `nbits` being 0. A command
word is one 32-bit register value (R96), so a longer instruction, or bits outside `nbits`, is no command word. -/
def decodeTableWord (nbits w : Nat) : Option Instr :=
  if nbits ≤ 32 ∧ w < 2 ^ nbits then
    match decode (BitVec.ofNat 32 w) with
    | .legal i => some i
    | .illegal _ => none
  else none

end Sys2Proof
end

