-- ==== Sys2Proof/Machine/Bytes.lean ====
section
/-! DEFINITION. Byte order, in one place: the little-endian conversions of 00_scope.md R11 and the slices of R10. -/

namespace Sys2Proof.Machine

/-- The number a byte string stands for, least significant byte first. -/
def leNat : List Byte → Nat
  | [] => 0
  | b :: bs => b.toNat + 256 * leNat bs

/-- `le32(s)` (R11). On fewer than four bytes it is the number they make, zero-extended, as R62 has a narrow read give it. -/
def le32 (s : List Byte) : Word := BitVec.ofNat 32 (leNat s)

/-- The `n` low bytes of `v`, least significant first: byte `i` is `v[8i+7:8i]` (R11, R62). -/
def leBytes : Nat → Word → List Byte
  | 0, _ => []
  | n + 1, v => v.setWidth 8 :: leBytes n (v >>> 8)

/-- `unle32(v)` (R11). -/
def unle32 (v : Word) : List Byte := leBytes 4 v

/-- `s[i..j)` (R10). -/
def slice (s : List Byte) (i j : Nat) : List Byte := (s.drop i).take (j - i)

/-- `zeros(n)` (R10). -/
def zeros (n : Nat) : List Byte := List.replicate n 0

end Sys2Proof.Machine
end

