-- ==== Sys2Proof/Machine/Bus.lean ====
section
/-! DEFINITION. What crosses the block's edge: the register map's names and offsets (10_state.md R22), host accesses
(20_memory.md R62, R65; 30_encoding.md R104), and the events that drive a run (00_scope.md R7). -/

namespace Sys2Proof.Machine

/-- The registers of the map (R22). -/
inductive RegName where
  | id | ctrl | status | cmd
  | srcAddr | payAddr | payLen | cmdAddr | cmdLen | dstAddr | magic
  | outLen | cksumOut
  | hdrMagic | hdrCmd0 | hdrCmd1 | hdrCmd2 | hdrDataLen | hdrChecksum
  deriving DecidableEq, Repr

/-- The offset of a register from `REG_BASE` (R22). -/
def RegName.offset : RegName → Nat
  | .id => 0x000
  | .ctrl => 0x004
  | .status => 0x008
  | .cmd => 0x00C
  | .srcAddr => 0x010
  | .payAddr => 0x014
  | .payLen => 0x018
  | .cmdAddr => 0x01C
  | .cmdLen => 0x020
  | .dstAddr => 0x024
  | .magic => 0x028
  | .outLen => 0x02C
  | .cksumOut => 0x030
  | .hdrMagic => 0x040
  | .hdrCmd0 => 0x044
  | .hdrCmd1 => 0x048
  | .hdrCmd2 => 0x04C
  | .hdrDataLen => 0x050
  | .hdrChecksum => 0x054

/-- Every row of the register map (R22). -/
def RegName.all : List RegName :=
  [.id, .ctrl, .status, .cmd, .srcAddr, .payAddr, .payLen, .cmdAddr, .cmdLen, .dstAddr, .magic, .outLen, .cksumOut,
    .hdrMagic, .hdrCmd0, .hdrCmd1, .hdrCmd2, .hdrDataLen, .hdrChecksum]

/-- The register at an offset; none where the map has no row (R22). -/
def RegName.ofOffset (off : Nat) : Option RegName := RegName.all.find? (fun r => r.offset == off)

/-- Access widths of the bus: 8, 16 and 32 bits (R62, R104). -/
inductive Width where
  | w8 | w16 | w32
  deriving DecidableEq, Repr

/-- The width in bytes. -/
def Width.bytes : Width → Nat
  | .w8 => 1
  | .w16 => 2
  | .w32 => 4

/-- The two ports of the block (R61). -/
inductive Port where
  /-- The register port. -/
  | reg
  /-- The buffer memory port. -/
  | mem
  deriving DecidableEq, Repr

/-- What an access asks for: a read, or a write of a value (R104). -/
inductive BusOp where
  | read
  | write (v : Word)
  deriving DecidableEq, Repr

/-- One host access: port, direction, width, offset and data, as R104 writes it. The offset is a plain number, so that it
may lie outside the port's space and get the bus error of R207. -/
structure Access where
  port : Port
  width : Width
  offset : Nat
  op : BusOp
  deriving DecidableEq, Repr

/-- The part of a port's acceptance that the access itself decides: on the register port, 32 bits wide at an offset of the
map (R65); on the buffer port, naturally aligned (R63). -/
def Access.shapeOk (a : Access) : Bool :=
  match a.port with
  | .reg => a.width == .w32 && a.offset % 4 == 0 && (RegName.ofOffset a.offset).isSome
  | .mem => a.offset % a.width.bytes == 0

/-- One thing that can happen next (R7). The list of them in the state is the order in which the agents move (log entry 6). -/
inductive Event where
  /-- The engine's turn: it completes its command if it holds one (R211). -/
  | engine
  /-- A host access on one of the two ports. -/
  | access (a : Access)
  /-- A host access at a platform address, which the windows at `REG_BASE` and `MEM_BASE` turn into a port and an offset
  (R61). -/
  | platform (addr : Nat) (width : Width) (op : BusOp)
  /-- `RST` is asserted (R240). -/
  | assertRst
  /-- `RST` is released (R240). -/
  | releaseRst
  deriving DecidableEq, Repr

end Sys2Proof.Machine
end

