-- ==== Sys2Proof/Machine/State.lean ====
section
/-! DEFINITION. The state of the block (10_state.md), the reasons a step can stop, and the state right after reset (R49). -/

namespace Sys2Proof.Machine

/-- The codes of `STATUS.ERR` (R28). Codes 4 to 15 are reserved and never written, so no state holds one (log entry 15). -/
inductive ErrCode where
  /-- 0: the command completed without error (R201). -/
  | none
  /-- 1: the command word is not legal (R202). -/
  | illegalCmd
  /-- 2: a region runs past the end of MEM (R203). -/
  | range
  /-- 3: FRAME's output overlaps an input (R204). -/
  | overlap
  deriving DecidableEq, Repr

/-- The fields of `STATUS` (R25 to R28). Its reserved bits hold nothing (R29). -/
structure Status where
  busy : Bool
  done : Bool
  valid : Bool
  err : ErrCode
  deriving DecidableEq, Repr

/-- The operand registers (R31 to R37). The engine never writes them. -/
structure OperandRegs where
  srcAddr : Word
  payAddr : Word
  payLen : Word
  cmdAddr : Word
  cmdLen : Word
  dstAddr : Word
  magic : Word
  deriving DecidableEq, Repr

/-- The header register group (R40 to R44): the source's MessageHeader. -/
structure HeaderRegs where
  magic : Word
  cmd0 : Word
  cmd1 : Word
  cmd2 : Word
  dataLen : Word
  checksum : Word
  deriving DecidableEq, Repr

/-- Buffer memory: the bytes written since reset, by address, strictly rising (R60, R47). A byte that is not listed is
one whose `WRITTEN` bit is 0. -/
abbrev Memory := List Host.Cell

/-- What a byte that is not listed reads as: no value, since nothing has written it since reset (R71, R73; log entry 4). -/
def Memory.unlisted : Option Byte := Option.none

/-- Everything the spec gives the block, and the two lists of the model's own: `events`, what moves next, and `reads`, what
the host has been given. -/
structure State where
  /-- `CTRL.IE` (R24). -/
  ie : Bool
  /-- `STATUS` (R25 to R29). -/
  status : Status
  /-- The operand registers (R31 to R37). -/
  ops : OperandRegs
  /-- `OUT_LEN` (R38). -/
  outLen : Word
  /-- `CKSUM_OUT` (R39). -/
  cksumOut : Word
  /-- The header register group (R44). -/
  hdr : HeaderRegs
  /-- `LOP`, the latched operation (R46). -/
  lop : Instr
  /-- `MEM` with its `WRITTEN` bits (R47, R60). -/
  mem : Memory
  /-- The level of the input `RST` (R240). -/
  rst : Bool
  /-- What happens next, oldest first (R7; log entry 6). -/
  events : List Event
  /-- The values the ports have returned to the host, newest first (R62, R104; log entry 10). -/
  reads : List Word
  deriving DecidableEq, Repr

/-- Why the machine stops with a fault. -/
inductive Fault where
  /-- A host access that the port does not accept (R207). Raised by a host access only; it changes nothing, and the model
  ends the run there, as R208 directs. Safe. -/
  | busError
  /-- A read of a buffer byte nothing has written since reset (R71, R206), by a host read or by a command that passed every
  check. The hardware goes on with an unspecified byte. Safe. -/
  | uninitRead
  deriving DecidableEq, Repr

/-- Why the machine gives no meaning. -/
inductive Refusal where
  /-- An instruction without a meaning yet, by its mnemonic. Raised by no arm of this model. Safe. -/
  | notModelled (mnemonic : String)
  /-- A platform access at an address in neither window of R61: it goes to another device. Raised by a platform access
  only. Safe. -/
  | outsideWindows
  /-- A platform access at an address in both windows, for a platform that maps them over each other, of which the spec
  does not say which port answers (R61, R75). Raised by a platform access only. Safe. -/
  | windowsOverlap
  deriving DecidableEq, Repr

/-- The block right after reset (R49, R240, R242): every register 0 and the engine IDLE, no byte of MEM written, `RST`
released. `lop` has no reset value in the spec (R46; log entry 5); nothing is due to happen and nothing has been read. -/
def State.reset : State where
  ie := false
  status := { busy := false, done := false, valid := false, err := .none }
  ops := { srcAddr := 0, payAddr := 0, payLen := 0, cmdAddr := 0, cmdLen := 0, dstAddr := 0, magic := 0 }
  outLen := 0
  cksumOut := 0
  hdr := { magic := 0, cmd0 := 0, cmd1 := 0, cmd2 := 0, dataLen := 0, checksum := 0 }
  lop := .parse
  mem := []
  rst := false
  events := []
  reads := []

end Sys2Proof.Machine
end

