-- ==== Sys2Proof/Machine/Flags.lean ====
section
/-! DEFINITION. The flags (10_state.md R50): how STATUS and CTRL read, what each event does to STATUS, and the IRQ level. -/

namespace Sys2Proof.Machine

/-- The code of `STATUS.ERR`, bits 7:4 (R28). -/
def errCode : ErrCode → BitVec 4
  | .none => 0
  | .illegalCmd => 1
  | .range => 2
  | .overlap => 3

/-- A flag as one bit of a word. -/
def flagBit (b : Bool) : Word := if b then 1#32 else 0#32

/-- `STATUS` as a host reads it: BUSY bit 0, DONE bit 1, VALID bit 2, ERR bits 7:4, the rest 0 (R25 to R29). -/
def statusWord (st : Status) : Word :=
  flagBit st.busy ||| (flagBit st.done <<< 1) ||| (flagBit st.valid <<< 2) ||| ((errCode st.err).setWidth 32 <<< 4)

/-- `CTRL` as a host reads it: IE bit 0, the rest 0 (R24). -/
def ctrlWord (ie : Bool) : Word := flagBit ie

/-- What a host write to STATUS leaves: bit 1 clears DONE, every other bit is ignored (R26, R29). -/
def ackStatus (v : Word) (st : Status) : Status := { st with done := st.done && !v.getLsbD 1 }

/-- STATUS once a CMD write while IDLE has cleared DONE, VALID and ERR (R30). -/
def clearedStatus (st : Status) : Status := { st with done := false, valid := false, err := .none }

/-- STATUS while a legal command is latched (R30). -/
def startedStatus (st : Status) : Status := { clearedStatus st with busy := true }

/-- STATUS after `complete(err, valid)` (R211): BUSY 0, DONE 1, ERR the code, VALID the result if there is no error. -/
def completedStatus (err : ErrCode) (valid : Bool) : Status :=
  { busy := false, done := true, valid := err == .none && valid, err := err }

/-- The output `IRQ`: `CTRL.IE AND STATUS.DONE`, at every instant (R48, R213). -/
def irq (s : State) : Bool := s.ie && s.status.done

end Sys2Proof.Machine
end

