-- ==== Sys2Proof/Machine/Ops.lean ====
section
/-! DEFINITION. The named operations over memory and registers: MemRead and MemWrite (20_memory.md R71), the register map's
reads and writes (10_state.md R22), starting and completing a command (R30, 60_exceptions.md R211), and reset (R240). -/

namespace Sys2Proof.Machine

/-- `MEM[a]`; none where `WRITTEN[a] = 0` (R47, R71). -/
def readByte : Memory → Nat → Option Byte
  | [], _ => Memory.unlisted
  | (k, b) :: m, a => if k = a then some b else readByte m a

/-- `MEM[a] <- v` and `WRITTEN[a] <- 1` (R71). -/
def writeByte : Memory → Nat → Byte → Memory
  | [], a, v => [(a, v)]
  | (k, b) :: m, a, v =>
    if a < k then (a, v) :: (k, b) :: m
    else if a = k then (a, v) :: m
    else (k, b) :: writeByte m a v

/-- `MemRead(a, n)` (R71): the bytes from offset `a` on; none if one of them is unwritten, the model fault UNINIT_READ. -/
def memRead (m : Memory) (a : Nat) : Nat → Option (List Byte)
  | 0 => some []
  | n + 1 =>
    match readByte m a, memRead m (a + 1) n with
    | some b, some bs => some (b :: bs)
    | _, _ => none

/-- `MemWrite(a, len(s), s)` (R71). -/
def memWrite (m : Memory) (a : Nat) : List Byte → Memory
  | [] => m
  | b :: bs => memWrite (writeByte m a b) (a + 1) bs

/-- Addresses strictly rising from `lo` on, all below `hi`. -/
def memSorted (lo hi : Nat) : Memory → Bool
  | [] => true
  | (k, _) :: m => decide (lo ≤ k) && decide (k < hi) && memSorted (k + 1) hi m

/-- Memory in canonical form for a buffer of `hi` bytes: addresses strictly rising, every one below `hi` (R60). No entry
equals what an unlisted address reads as, since that is no value. -/
def memWf (hi : Nat) (m : Memory) : Bool := memSorted 0 hi m

/-- What a host read of a register returns (R22 to R43). Reading has no side effect (R74). -/
def readReg (s : State) : RegName → Word
  | .id => 0x56434844#32
  | .ctrl => ctrlWord s.ie
  | .status => statusWord s.status
  | .cmd => 0
  | .srcAddr => s.ops.srcAddr
  | .payAddr => s.ops.payAddr
  | .payLen => s.ops.payLen
  | .cmdAddr => s.ops.cmdAddr
  | .cmdLen => s.ops.cmdLen
  | .dstAddr => s.ops.dstAddr
  | .magic => s.ops.magic
  | .outLen => s.outLen
  | .cksumOut => s.cksumOut
  | .hdrMagic => s.hdr.magic
  | .hdrCmd0 => s.hdr.cmd0
  | .hdrCmd1 => s.hdr.cmd1
  | .hdrCmd2 => s.hdr.cmd2
  | .hdrDataLen => s.hdr.dataLen
  | .hdrChecksum => s.hdr.checksum

/-- `complete(err, valid)` (R211): the one way every command ends, an illegal word's included (R30). It changes STATUS and
nothing else; there is no vector, no saved state and nothing to return from (R216). -/
def complete (err : ErrCode) (valid : Bool) (s : State) : State := { s with status := completedStatus err valid }

/-- `raise E` (00_scope.md R13): the command ends at once with the error, having written nothing. -/
def raise (e : ErrCode) (s : State) : Host.Outcome State Fault Refusal := .next (complete e false s)

/-- A host write of `w` to CMD while IDLE (R30): clears DONE, VALID and ERR, then latches a legal command and sets BUSY, or
completes an illegal one within the write. -/
def startCommand (w : Word) (s : State) : State :=
  match decode w with
  | .legal i => { s with status := startedStatus s.status, lop := i }
  | .illegal _ => complete .illegalCmd false { s with status := clearedStatus s.status }

/-- What an accepted host write of `v` to a register does (R22 to R43): ID, OUT_LEN and CKSUM_OUT ignore it, CTRL keeps
bit 0, STATUS clears DONE by bit 1, CMD starts a command, every other register stores it (R74). -/
def writeReg (s : State) (v : Word) : RegName → State
  | .id => s
  | .ctrl => { s with ie := v.getLsbD 0 }
  | .status => { s with status := ackStatus v s.status }
  | .cmd => startCommand v s
  | .srcAddr => { s with ops := { s.ops with srcAddr := v } }
  | .payAddr => { s with ops := { s.ops with payAddr := v } }
  | .payLen => { s with ops := { s.ops with payLen := v } }
  | .cmdAddr => { s with ops := { s.ops with cmdAddr := v } }
  | .cmdLen => { s with ops := { s.ops with cmdLen := v } }
  | .dstAddr => { s with ops := { s.ops with dstAddr := v } }
  | .magic => { s with ops := { s.ops with magic := v } }
  | .outLen => s
  | .cksumOut => s
  | .hdrMagic => { s with hdr := { s.hdr with magic := v } }
  | .hdrCmd0 => { s with hdr := { s.hdr with cmd0 := v } }
  | .hdrCmd1 => { s with hdr := { s.hdr with cmd1 := v } }
  | .hdrCmd2 => { s with hdr := { s.hdr with cmd2 := v } }
  | .hdrDataLen => { s with hdr := { s.hdr with dataLen := v } }
  | .hdrChecksum => { s with hdr := { s.hdr with checksum := v } }

/-- A value returned to the host by a read (R62; log entry 10). -/
def giveHost (v : Word) (s : State) : State := { s with reads := v :: s.reads }

/-- Writes of the engine to its results. -/
def setHdr (h : HeaderRegs) (s : State) : State := { s with hdr := h }

def setCksumOut (v : Word) (s : State) : State := { s with cksumOut := v }

def setOutLen (v : Word) (s : State) : State := { s with outLen := v }

def setMem (m : Memory) (s : State) : State := { s with mem := m }

/-- What is still to happen, once the first event has been taken. -/
def setEvents (es : List Event) (s : State) : State := { s with events := es }

/-- The block reset, with `RST` at a level (R240, R241): every register at its reset value, a command in flight abandoned, no
byte of MEM written. What is due to happen and what the host has read are outside the block and stay. -/
def blockReset (level : Bool) (s : State) : State :=
  { State.reset with rst := level, events := s.events, reads := s.reads }

/-- The parameters the machine runs with (00_scope.md R6): those of `Config`. -/
def params : Params := Config.params

end Sys2Proof.Machine
end

