-- ==== Sys2Proof/Machine/Operands.lean ====
section
/-! DEFINITION. Operand forms: regions of MEM and their checks (20_memory.md R69, R70), the checksum of a byte string
(41_integrity.md R140), the command field (42_framer.md R170) and the header's fields (30_encoding.md R97). -/

namespace Sys2Proof.Machine

/-- `region_ok(a, n)` (R69), over unbounded naturals (00_scope.md R12). -/
def regionOk (c : Params) (a n : Nat) : Bool := n == 0 || decide (a + n ≤ c.memBytes)

/-- `overlap(a, n, b, m)` (R70). -/
def overlap (a n b m : Nat) : Bool := decide (0 < n) && decide (0 < m) && decide (a < b + m) && decide (b < a + n)

/-- `cksum(s)`: the first 4 bytes of `HASH(HASH(s))`, in the order the hash gives them (R140, R142; 90_conflicts.md C1). -/
def cksum (c : Params) (s : List Byte) : List Byte :=
  let d := c.hash (c.hash s).toList
  [d[0], d[1], d[2], d[3]]

/-- The register form of the checksum, `le32(cksum(s))` (R140, R103). -/
def cksumReg (c : Params) (s : List Byte) : Word := le32 (cksum c s)

/-- The command name at offset `a` of at most `k` bytes, which a zero byte ends; later bytes are not read (R170, 92_eei_decisions.md
D12; log entry 14). None if a byte it reads is unwritten. -/
def nameBytes (m : Memory) (a : Nat) : Nat → Option (List Byte)
  | 0 => some []
  | k + 1 =>
    match readByte m a with
    | none => none
    | some b => if b = 0 then some [] else (nameBytes m (a + 1) k).map (b :: ·)

/-- How many bytes of the command name are read: `min(len, 12)` (R170, R171). -/
def nameLen (len : Word) : Nat := min len.toNat 12

/-- A name padded with zeros to the 12 bytes of the command field (R170). -/
def padName (name : List Byte) : List Byte := name ++ zeros (12 - name.length)

/-- `cmdfield(a, len)` (R170). -/
def cmdField (m : Memory) (a : Nat) (len : Word) : Option (List Byte) := (nameBytes m a (nameLen len)).map padName

/-- The header group that 24 wire bytes give (R97, R103). -/
def headerOf (h : List Byte) : HeaderRegs where
  magic := le32 (slice h 0 4)
  cmd0 := le32 (slice h 4 8)
  cmd1 := le32 (slice h 8 12)
  cmd2 := le32 (slice h 12 16)
  dataLen := le32 (slice h 16 20)
  checksum := le32 (slice h 20 24)

/-- A wire message: magic, command field, payload length, checksum, payload (R97, R172). -/
def wireMessage (magic : Word) (field : List Byte) (payLen : Word) (sum payload : List Byte) : List Byte :=
  unle32 magic ++ field ++ unle32 payLen ++ sum ++ payload

/-- The length of FRAME's output, `24 + PAY_LEN`, an unbounded natural (R171). -/
def frameLen (payLen : Word) : Nat := 24 + payLen.toNat

end Sys2Proof.Machine
end

