-- ==== Sys2Proof/Machine/Framer.lean ====
section
/-! DEFINITION. The message framer: FRAME (42_framer.md). -/

namespace Sys2Proof.Machine

/-- The error FRAME raises, if any: RANGE for any of its three regions, then OVERLAP (R171, R209). -/
def frameCheck (c : Params) (s : State) : Option ErrCode :=
  let ca := s.ops.cmdAddr.toNat
  let cn := nameLen s.ops.cmdLen
  let pa := s.ops.payAddr.toNat
  let pn := s.ops.payLen.toNat
  let da := s.ops.dstAddr.toNat
  let dn := frameLen s.ops.payLen
  if !regionOk c ca cn then some .range
  else if !regionOk c pa pn then some .range
  else if !regionOk c da dn then some .range
  else if overlap da dn ca cn || overlap da dn pa pn then some .overlap
  else none

/-- FRAME under parameters `c`, in the order of R171's pseudocode. -/
def frameCmd (c : Params) (s : State) : Host.Outcome State Fault Refusal :=
  match frameCheck c s with
  | some e => raise e s
  | none =>
    match cmdField s.mem s.ops.cmdAddr.toNat s.ops.cmdLen, memRead s.mem s.ops.payAddr.toNat s.ops.payLen.toNat with
    | some f, some p =>
      let k := cksum c p
      let out := wireMessage s.ops.magic f s.ops.payLen k p
      .next (complete .none false
        (setCksumOut (le32 k)
          (setOutLen (BitVec.ofNat 32 (frameLen s.ops.payLen))
            (setMem (memWrite s.mem s.ops.dstAddr.toNat out) s))))
    | _, _ => .fault .uninitRead

/-- FRAME (R170 to R177). -/
def execFrame (s : State) : Host.Outcome State Fault Refusal := frameCmd params s

end Sys2Proof.Machine
end

