-- ==== Sys2Proof/Machine/HeaderParse.lean ====
section
/-! DEFINITION. The header parser: PARSE (40_header_parse.md). -/

namespace Sys2Proof.Machine

/-- PARSE under parameters `c`, in the order of R120's pseudocode. -/
def parseCmd (c : Params) (s : State) : Host.Outcome State Fault Refusal :=
  let a := s.ops.srcAddr.toNat
  if regionOk c a 24 then
    match memRead s.mem a 24 with
    | none => .fault .uninitRead
    | some h => .next (complete .none false (setHdr (headerOf h) s))
  else raise .range s

/-- PARSE (R120 to R123). -/
def execParse (s : State) : Host.Outcome State Fault Refusal := parseCmd params s

end Sys2Proof.Machine
end

