-- ==== Sys2Proof/Machine/Integrity.lean ====
section
/-! DEFINITION. The integrity engine: CKSUM and VERIFY (41_integrity.md). -/

namespace Sys2Proof.Machine

/-- CKSUM under parameters `c`, in the order of R143's pseudocode. -/
def cksumCmd (c : Params) (s : State) : Host.Outcome State Fault Refusal :=
  let a := s.ops.payAddr.toNat
  let n := s.ops.payLen.toNat
  if regionOk c a n then
    match memRead s.mem a n with
    | none => .fault .uninitRead
    | some p => .next (complete .none false (setCksumOut (cksumReg c p) s))
  else raise .range s

/-- VERIFY under parameters `c`, in the order of R144's pseudocode. The length is HDR_DATA_LEN, never PAY_LEN (R145). -/
def verifyCmd (c : Params) (m p : Bool) (s : State) : Host.Outcome State Fault Refusal :=
  if m && p then
    let a := s.ops.payAddr.toNat
    let n := s.hdr.dataLen.toNat
    if regionOk c a n then
      match memRead s.mem a n with
      | none => .fault .uninitRead
      | some bytes =>
        let k := cksumReg c bytes
        .next (complete .none (k == s.hdr.checksum) (setCksumOut k s))
    else raise .range s
  else .next (complete .none false s)

/-- CKSUM (R143). -/
def execCksum (s : State) : Host.Outcome State Fault Refusal := cksumCmd params s

/-- VERIFY (R144 to R148). -/
def execVerify (m p : Bool) (s : State) : Host.Outcome State Fault Refusal := verifyCmd params m p s

end Sys2Proof.Machine
end

