-- ==== Sys2Proof/Machine/Dispatch.lean ====
section
/-! DEFINITION. One arm per command: what completion runs for the latched operation (60_exceptions.md R211). -/

namespace Sys2Proof.Machine

def exec (i : Instr) (s : State) : Host.Outcome State Fault Refusal :=
  match i with
  | .parse => Sys2Proof.Machine.execParse s
  | .cksum => Sys2Proof.Machine.execCksum s
  | .verify m p => Sys2Proof.Machine.execVerify m p s
  | .frame => Sys2Proof.Machine.execFrame s

end Sys2Proof.Machine
end

