-- ==== Sys2Proof/Machine/HostSyntax.lean ====
section
/-! DEFINITION. The host program lines of 30_encoding.md R104 to R106, as the events they stand for. -/

namespace Sys2Proof.Machine

/-- `rd NAME` (R104). -/
def rd (r : RegName) : Event := .access ⟨.reg, .w32, r.offset, .read⟩

/-- `wr NAME, v` (R104). -/
def wr (r : RegName) (v : Word) : Event := .access ⟨.reg, .w32, r.offset, .write v⟩

/-- `mr8 a`, `mr16 a`, `mr32 a` (R104). -/
def mr (w : Width) (a : Nat) : Event := .access ⟨.mem, w, a, .read⟩

/-- `mw8 a, v`, `mw16 a, v`, `mw32 a, v` (R104). -/
def mw (w : Width) (a : Nat) (v : Word) : Event := .access ⟨.mem, w, a, .write v⟩

/-- `cmd PARSE`, `cmd CKSUM`, `cmd VERIFY m, p`, `cmd FRAME` (R105). -/
def cmd (i : Instr) : Event := wr .cmd (encode i)

/-- `ack` (R106): clear DONE. -/
def ackDone : Event := wr .status 0x00000002#32

/-- `wait` (R106) as a loop that reads STATUS `n` times; how often it goes round is the host's own control flow. -/
def wait (n : Nat) : List Event := List.replicate n (rd .status)

/-- `mbytes a, b0 b1 ...` (R106). -/
def mbytes (a : Nat) : List Byte → List Event
  | [] => []
  | b :: bs => mw .w8 a (b.setWidth 32) :: mbytes (a + 1) bs

/-- `mstr a, "text"` (R106): the text's ASCII codes, no terminator (00_scope.md R10). -/
def mstr (a : Nat) (text : List Char) : List Event := mbytes a (text.map (fun ch => BitVec.ofNat 8 ch.toNat))

end Sys2Proof.Machine
end

