-- ==== Sys2Proof/Machine/Ports.lean ====
section
/-! DEFINITION. The host's side: which accesses a port accepts (60_exceptions.md R207), what an accepted one does
(10_state.md R22, 20_memory.md R62), and the two platform windows (R61). -/

namespace Sys2Proof.Machine

/-- The accesses a port accepts while BUSY: reads of ID, CTRL and STATUS, writes of CTRL and STATUS (R45; log entry 24). -/
def allowedWhileBusy (a : Access) : Bool :=
  match a.port, RegName.ofOffset a.offset, a.op with
  | .reg, some .id, .read => true
  | .reg, some .ctrl, _ => true
  | .reg, some .status, _ => true
  | _, _, _ => false

/-- A buffer access lies inside MEM (R63); every register access is inside its window or unmapped. -/
def insideSpace (c : Params) (a : Access) : Bool :=
  match a.port with
  | .reg => true
  | .mem => decide (a.offset + a.width.bytes ≤ c.memBytes)

/-- The accesses that do not get a bus error (R207, R240). -/
def accepts (c : Params) (a : Access) (s : State) : Bool :=
  !s.rst && a.shapeOk && insideSpace c a && (!s.status.busy || allowedWhileBusy a)

/-- An accepted access to a register (R22). -/
def regAccess (r : RegName) (op : BusOp) (s : State) : Host.Outcome State Fault Refusal :=
  match op with
  | .read => .next (giveHost (readReg s r) s)
  | .write v => .next (writeReg s v r)

/-- An accepted access to the buffer memory, little-endian (R62), faulting on an unwritten byte (R64). -/
def bufAccess (a n : Nat) (op : BusOp) (s : State) : Host.Outcome State Fault Refusal :=
  match op with
  | .read =>
    match memRead s.mem a n with
    | none => .fault .uninitRead
    | some bytes => .next (giveHost (le32 bytes) s)
  | .write v => .next (setMem (memWrite s.mem a (leBytes n v)) s)

/-- One host access (R7, R72). A rejected one is a bus error, which changes nothing and which the model treats as a host fault
(R208; log entry 9). -/
def hostAccess (c : Params) (a : Access) (s : State) : Host.Outcome State Fault Refusal :=
  if accepts c a s then
    match a.port with
    | .reg =>
      match RegName.ofOffset a.offset with
      | none => .fault .busError
      | some r => regAccess r a.op s
    | .mem => bufAccess a.offset a.width.bytes a.op s
  else .fault .busError

/-- The offset of a platform address in a window of `size` bytes at `base` (R61). -/
def windowOffset (base size addr : Nat) : Option Nat :=
  if base ≤ addr ∧ addr < base + size then some (addr - base) else none

/-- One host access at a platform address: the port whose window holds it (R61, R75). An address in no window belongs to another
device, and an address in both to a platform the spec says nothing of (log entry 3). -/
def platformAccess (c : Params) (addr : Nat) (width : Width) (op : BusOp) (s : State) :
    Host.Outcome State Fault Refusal :=
  match windowOffset c.regBase 4096 addr, windowOffset c.memBase c.memBytes addr with
  | some off, none => hostAccess c ⟨.reg, width, off, op⟩ s
  | none, some off => hostAccess c ⟨.mem, width, off, op⟩ s
  | none, none => .refused .outsideWindows
  | some _, some _ => .refused .windowsOverlap

end Sys2Proof.Machine
end

