-- ==== Sys2Proof/Machine/Agents.lean ====
section
/-! DEFINITION. Who moves (00_scope.md R7): the engine's step, the host's accesses and reset, in the order `events` gives. -/

namespace Sys2Proof.Machine

/-- The engine's turn: completion, enabled iff `STATUS.BUSY = 1` and the block is not in reset (R211, R240). An IDLE engine has no
step and nothing changes (R223; log entries 8, 12). -/
def engineTurn (run : Instr → State → Host.Outcome State Fault Refusal) (s : State) :
    Host.Outcome State Fault Refusal :=
  if s.status.busy && !s.rst then run s.lop s else .next s

/-- `RST` asserted: it resets the block from any state (R240). -/
def assertReset (s : State) : State := blockReset true s

/-- `RST` released: every register has its reset value (R240). Releasing what is not asserted is no event (log entry 12). -/
def releaseReset (s : State) : State := if s.rst then blockReset false s else s

/-- One event, the state being the one with that event taken from `events`. -/
def runEvent (c : Params) (run : Instr → State → Host.Outcome State Fault Refusal) (e : Event) (s : State) :
    Host.Outcome State Fault Refusal :=
  match e with
  | .engine => engineTurn run s
  | .access a => hostAccess c a s
  | .platform addr width op => platformAccess c addr width op s
  | .assertRst => .next (assertReset s)
  | .releaseRst => .next (releaseReset s)

/-- One step under parameters `c`: the next event; when none is due, the engine's turn, so that a BUSY engine eventually
completes (R254; log entry 7). -/
def agentStep (c : Params) (run : Instr → State → Host.Outcome State Fault Refusal) (s : State) :
    Host.Outcome State Fault Refusal :=
  match s.events with
  | [] => engineTurn run s
  | e :: es => runEvent c run e (setEvents es s)

/-- The state in which the very next step runs the command of an instruction of `nbits` bits that are `w`: what the CMD write of
a legal word leaves (R30), with the engine's turn next. An illegal word is put where its CMD write is next. A number that is no 32-bit word (`nbits` over 32, or
`w` not below `2 ^ nbits`) is no command word (30_encoding.md R96) and the spec has none: it is the model's choice, DESIGN CHOICE,
that its low 32 bits are then what CMD is written with, which may be a legal word (log entry 17). -/
def loadCommand (s : State) (nbits w : Nat) : State :=
  match decodeTableWord nbits w with
  | some i => { s with rst := false, status := startedStatus s.status, lop := i, events := .engine :: s.events }
  | none =>
    { s with
      rst := false
      status := { s.status with busy := false }
      events := wr .cmd (BitVec.ofNat 32 w) :: s.events }

end Sys2Proof.Machine
end

