-- ==== Sys2Proof/Machine/Step.lean ====
section
/-! DEFINITION. The step of the block (00_scope.md R7, R8). -/

namespace Sys2Proof.Machine

/-- One step: the next event of the run, or the engine's completion (R7). -/
def step (s : State) : Host.Outcome State Fault Refusal := agentStep params exec s

/-- `s` with a command word placed where `step` takes its next instruction from: the latched operation (log entry 17). -/
def State.withFetchWord (s : State) (nbits w : Nat) : State := loadCommand s nbits w

end Sys2Proof.Machine
end

