-- ==== Sys2Proof/Safety.lean ====
section
/-! DEFINITION. The terms claims use: what memory holds, the accesses a busy or idle block is asked for, and the invariant. -/

namespace Sys2Proof

open Sys2Proof.Machine

/-- `n` steps of the machine, stopping at the first fault or refusal. -/
def stepsFrom (n : Nat) (s : State) : Host.Outcome State Fault Refusal := Host.Core.run Sys2Proof.core n s

/-- `MEM[a..a + len(bytes)) = bytes`, every one of them written (20_memory.md R47, R71). -/
def HoldsBytes (m : Memory) (a : Nat) (bytes : List Byte) : Prop :=
  ∀ i, i < bytes.length → readByte m (a + i) = bytes[i]?

/-- Some byte of the region `(a, n)` has `WRITTEN = 0` (R47). -/
def HasUnwritten (m : Memory) (a n : Nat) : Prop := ∃ i, i < n ∧ readByte m (a + i) = none

/-- The region `(a, n)` lies in MEM or is empty (R69), with `MEM_BYTES` as R6 gives it. -/
def InRange (a n : Nat) : Prop := n = 0 ∨ a + n ≤ 2 ^ params.memAw

/-- `x` is an offset of the region `(a, n)` (R69). -/
def InRegion (x a n : Nat) : Prop := a ≤ x ∧ x < a + n

/-- The command name FRAME takes from offset `a`, of at most `k` bytes: bytes before the first zero, all written, ended by
that zero or by `k` (42_framer.md R170). -/
def IsName (m : Memory) (a k : Nat) (name : List Byte) : Prop :=
  HoldsBytes m a name ∧ (0#8) ∉ name ∧ name.length ≤ k ∧
    (name.length = k ∨ readByte m (a + name.length) = some 0#8)

/-- The event `e` is the host access `a`: at its port, or at the platform address that its port's window gives that port's offset
(20_memory.md R61). -/
def IsAccess (e : Event) (a : Access) : Prop :=
  e = .access a ∨
    e = .platform ((match a.port with | .reg => params.regBase | .mem => params.memBase) + a.offset) a.width a.op

/-- The block is out of reset and idle, and the event `e` is next, then `es`. -/
def IdleNext (s : State) (e : Event) (es : List Event) : Prop :=
  s.rst = false ∧ s.status.busy = false ∧ s.events = e :: es

/-- The block is out of reset and busy, and the event `e` is next, then `es`. -/
def BusyNext (s : State) (e : Event) (es : List Event) : Prop :=
  s.rst = false ∧ s.status.busy = true ∧ s.events = e :: es

/-- The state's block fields agree with the state right after reset, but for `lop`, which R46 leaves open. -/
def AtReset (s : State) : Prop :=
  s.ie = false ∧ s.status = State.reset.status ∧ s.ops = State.reset.ops ∧ s.outLen = 0 ∧ s.cksumOut = 0 ∧
    s.hdr = State.reset.hdr ∧ ∀ a, readByte s.mem a = none

/-- What holds in every state a run reaches, and each step keeps. -/
structure BlockInv (s : State) : Prop where
  /-- MEM is in canonical form and holds no byte past its end (R60). -/
  mem : memWf params.memBytes s.mem = true
  /-- While BUSY, DONE, VALID and ERR are 0 (R30, R45, R215). -/
  busy : s.status.busy = true → s.status = { busy := true, done := false, valid := false, err := .none }
  /-- VALID is 1 only with ERR = NONE (R211). -/
  valid : s.status.valid = true → s.status.err = .none
  /-- OUT_LEN is 0, or the length of a message that fits in MEM (R38, R177). -/
  outLen : s.outLen = 0 ∨ (24 ≤ s.outLen.toNat ∧ s.outLen.toNat ≤ params.memBytes)
  /-- While `RST` is asserted the block is at its reset values (R240). -/
  rst : s.rst = true → AtReset s

end Sys2Proof
end

