-- ==== Sys2Proof/Certificates/Slice0/Obligations.lean ====
section
/-! DEFINITION. The statements for the provers, rule by rule of spec/. `params` stands for any legal choice of HASH, MEM_AW,
REG_BASE and MEM_BASE (log entries 1 to 3), so each statement holds for every one. -/

open Sys2Proof Sys2Proof.Machine

/-! ## Encoding (30_encoding.md) -/

/-- R93 and R105: decoding and encoding agree on every word and every command, so each command has exactly one word. -/
def Obligations.DecodeLegalIffEncode : Prop :=
  ∀ (w : Word) (i : Instr), decode w = .legal i ↔ w = encode i

/-- R93: what the seven legal words decode to, and that every other word is illegal. -/
def Obligations.ExactlySevenLegalWords : Prop :=
  decode 0x00000001#32 = .legal .parse ∧ decode 0x00000002#32 = .legal .cksum ∧
  decode 0x00000003#32 = .legal (.verify false false) ∧ decode 0x00000103#32 = .legal (.verify true false) ∧
  decode 0x00000203#32 = .legal (.verify false true) ∧ decode 0x00000303#32 = .legal (.verify true true) ∧
  decode 0x00000004#32 = .legal .frame ∧
  ∀ w : Word, (∃ y, decode w = .illegal y) ↔
    w ∉ [0x00000001#32, 0x00000002#32, 0x00000003#32, 0x00000103#32, 0x00000203#32, 0x00000303#32, 0x00000004#32]

/-- R94: the illegal words are those with OP 0 or above 4, those with a reserved bit set, and those with M or P set and OP
not VERIFY's. -/
def Obligations.IllegalWordClasses : Prop :=
  ∀ w : Word, (∃ y, decode w = .illegal y) ↔
    (w.toNat % 16 = 0 ∨ 5 ≤ w.toNat % 16 ∨ w &&& 0xFFFFFCF0#32 ≠ 0#32 ∨
      (w.toNat % 16 ≠ 3 ∧ w &&& 0x00000300#32 ≠ 0#32))

/-- R93, R94 and the decode vectors of 95_test_vectors.md 2.3: words written out from the encoding. -/
def Obligations.SpecWordsDecode : Prop :=
  decodeTableWord 32 0x00000001 = some .parse ∧ decodeTableWord 32 0x00000002 = some .cksum ∧
  decodeTableWord 32 0x00000103 = some (.verify true false) ∧
  decodeTableWord 32 0x00000203 = some (.verify false true) ∧
  decodeTableWord 32 0x00000004 = some .frame ∧ decodeTableWord 32 0x00000101 = none ∧
  decodeTableWord 32 0x00000204 = none ∧ decodeTableWord 32 0x00000013 = none ∧
  decodeTableWord 32 0x00000403 = none ∧ decodeTableWord 32 0x80000002 = none

/-! ## The step and the life of a command -/

/-- R211: at the engine's turn, or when nothing else is due, a BUSY block out of reset runs its latched command. That it moves
when nothing is due is the model's choice (log entry 7). -/
def Obligations.StepRunsLatchedCommand : Prop :=
  ∀ s : State, s.rst = false → s.status.busy = true →
    (∀ es, s.events = .engine :: es → step s = exec s.lop { s with events := es }) ∧
    (s.events = [] → step s = exec s.lop s)

/-- A step runs the decoded instruction: with a legal word placed, the very next step is that command's meaning on the BUSY
state its CMD write leaves (R30, R211; log entry 17). -/
def Obligations.StepRunsPlacedWord : Prop :=
  ∀ (s : State) (w : Word) (i : Instr), decode w = .legal i →
    step (s.withFetchWord 32 w.toNat) =
      exec i { s with
        rst := false, status := { busy := true, done := false, valid := false, err := .none }, lop := i }

/-- R223: an IDLE engine changes nothing, in its turn or when nothing is due. That the model steps at all there is its own
choice (log entries 8 and 12). -/
def Obligations.IdleEngineChangesNothing : Prop :=
  ∀ s : State, s.status.busy = false →
    (∀ es, s.events = .engine :: es → step s = .next { s with events := es }) ∧
    (s.events = [] → step s = .next s)

/-- R30: a CMD write while IDLE clears DONE, VALID and ERR and either latches a legal command and sets BUSY or completes an
illegal one at once; while BUSY it is a bus error; CMD reads 0. -/
def Obligations.CmdWriteStartsOrRejects : Prop :=
  ∀ (s : State) (w : Word) (es : List Event),
    (∀ i, IdleNext s (wr .cmd w) es → decode w = .legal i →
      step s = .next { s with
        status := { busy := true, done := false, valid := false, err := .none }, lop := i, events := es }) ∧
    (∀ y, IdleNext s (wr .cmd w) es → decode w = .illegal y →
      step s = .next { s with
        status := { busy := false, done := true, valid := false, err := .illegalCmd }, events := es }) ∧
    (BusyNext s (wr .cmd w) es → step s = .fault .busError) ∧
    (IdleNext s (rd .cmd) es → step s = .next { s with events := es, reads := 0#32 :: s.reads })

/-- R254 and R106: whatever number of times a host's wait loop reads STATUS, the BUSY engine then completes its command. That it
does so when nothing else is due is the model's choice (log entry 7). -/
def Obligations.WaitLoopEndsInCompletion : Prop :=
  ∀ (n : Nat) (s : State), s.rst = false → s.status.busy = true → s.events = wait n →
    stepsFrom (n + 1) s =
      exec s.lop { s with events := [], reads := List.replicate n (statusWord s.status) ++ s.reads }

/-- R25, R30, R211: from its CMD write to its completion, with the host polling in between, a command is its meaning on the
state at the write; every poll reads STATUS = 0x00000001 (95_test_vectors.md S-7, S-11). The completion when nothing else is
due is the model's choice (log entry 7). -/
def Obligations.CommandFromWriteToCompletion : Prop :=
  ∀ (n : Nat) (i : Instr) (s : State), IdleNext s (cmd i) (wait n) →
    stepsFrom (n + 2) s =
      exec i { s with
        status := { busy := true, done := false, valid := false, err := .none }, lop := i, events := [],
        reads := List.replicate n 0x00000001#32 ++ s.reads }

/-! ## PARSE (40_header_parse.md) -/

/-- R120: PARSE's result, its error RANGE, and the model fault UNINIT_READ. -/
def Obligations.ParseMeaning : Prop :=
  ∀ s : State,
    (∀ h : List Byte, InRange s.ops.srcAddr.toNat 24 → h.length = 24 → HoldsBytes s.mem s.ops.srcAddr.toNat h →
      exec .parse s = .next { s with
        hdr := {
          magic := le32 (slice h 0 4), cmd0 := le32 (slice h 4 8), cmd1 := le32 (slice h 8 12),
          cmd2 := le32 (slice h 12 16), dataLen := le32 (slice h 16 20), checksum := le32 (slice h 20 24) },
        status := { busy := false, done := true, valid := false, err := .none } }) ∧
    (¬ InRange s.ops.srcAddr.toNat 24 →
      exec .parse s = .next { s with status := { busy := false, done := true, valid := false, err := .range } }) ∧
    (InRange s.ops.srcAddr.toNat 24 → HasUnwritten s.mem s.ops.srcAddr.toNat 24 →
      exec .parse s = .fault .uninitRead)

/-- R122: PARSE writes only the six header registers and STATUS. -/
def Obligations.ParseLeavesTheRest : Prop :=
  ∀ s t : State, exec .parse s = .next t → t = { s with hdr := t.hdr, status := t.status }

/-! ## CKSUM and VERIFY (41_integrity.md) -/

/-- R140: the checksum is the first 4 bytes of the hash of the hash, in output order. -/
def Obligations.ChecksumIsFirstFourBytes : Prop :=
  ∀ (c : Params) (s : List Byte), cksum c s = (c.hash (c.hash s).toList).toList.take 4

/-- R143: CKSUM's result, its error RANGE, and the model fault UNINIT_READ. -/
def Obligations.CksumMeaning : Prop :=
  ∀ s : State,
    (∀ p : List Byte, InRange s.ops.payAddr.toNat s.ops.payLen.toNat → p.length = s.ops.payLen.toNat →
      HoldsBytes s.mem s.ops.payAddr.toNat p →
      exec .cksum s = .next { s with
        cksumOut := le32 (cksum params p),
        status := { busy := false, done := true, valid := false, err := .none } }) ∧
    (¬ InRange s.ops.payAddr.toNat s.ops.payLen.toNat →
      exec .cksum s = .next { s with status := { busy := false, done := true, valid := false, err := .range } }) ∧
    (InRange s.ops.payAddr.toNat s.ops.payLen.toNat → HasUnwritten s.mem s.ops.payAddr.toNat s.ops.payLen.toNat →
      exec .cksum s = .fault .uninitRead)

/-- R143: with PAY_LEN = 0 CKSUM reads nothing and gives the checksum of the empty string, wherever PAY_ADDR points. -/
def Obligations.CksumOfNothing : Prop :=
  ∀ s : State, s.ops.payLen = 0 →
    exec .cksum s = .next { s with
      cksumOut := le32 (cksum params []), status := { busy := false, done := true, valid := false, err := .none } }

/-- R143 and R39: CKSUM writes only CKSUM_OUT and STATUS. -/
def Obligations.CksumLeavesTheRest : Prop :=
  ∀ s t : State, exec .cksum s = .next t → t = { s with cksumOut := t.cksumOut, status := t.status }

/-- R144: VERIFY's result with message and payload present, its result when one is absent, its error RANGE, and the model
fault UNINIT_READ. -/
def Obligations.VerifyMeaning : Prop :=
  ∀ s : State,
    (∀ m p : Bool, m = false ∨ p = false →
      exec (.verify m p) s = .next { s with
        status := { busy := false, done := true, valid := false, err := .none } }) ∧
    (∀ b : List Byte, InRange s.ops.payAddr.toNat s.hdr.dataLen.toNat → b.length = s.hdr.dataLen.toNat →
      HoldsBytes s.mem s.ops.payAddr.toNat b →
      exec (.verify true true) s = .next { s with
        cksumOut := le32 (cksum params b),
        status := {
          busy := false, done := true, valid := decide (le32 (cksum params b) = s.hdr.checksum), err := .none } }) ∧
    (¬ InRange s.ops.payAddr.toNat s.hdr.dataLen.toNat →
      exec (.verify true true) s = .next { s with
        status := { busy := false, done := true, valid := false, err := .range } }) ∧
    (InRange s.ops.payAddr.toNat s.hdr.dataLen.toNat → HasUnwritten s.mem s.ops.payAddr.toNat s.hdr.dataLen.toNat →
      exec (.verify true true) s = .fault .uninitRead)

/-- R144 and R39: VERIFY writes only STATUS and CKSUM_OUT, and CKSUM_OUT only with message and payload present. -/
def Obligations.VerifyLeavesTheRest : Prop :=
  ∀ (s t : State) (m p : Bool), exec (.verify m p) s = .next t →
    t = { s with cksumOut := t.cksumOut, status := t.status } ∧ (m = false ∨ p = false → t.cksumOut = s.cksumOut)

/-- R145 and R146: VERIFY's outcome is the same whatever PAY_LEN, HDR_MAGIC and HDR_CMD0..2 hold. -/
def Obligations.VerifyReadsNoMagicAndNoPayLen : Prop :=
  ∀ (s : State) (m p : Bool) (len x0 x1 x2 x3 : Word),
    let change : State → State := fun u =>
      { u with
        ops := { u.ops with payLen := len }
        hdr := { u.hdr with magic := x0, cmd0 := x1, cmd1 := x2, cmd2 := x3 } }
    exec (.verify m p) (change s) =
      match exec (.verify m p) s with
      | .next t => .next (change t)
      | .fault r => .fault r
      | .refused r => .refused r

/-- R147: VALID = 1 exactly when the four computed checksum bytes are the four header checksum bytes. -/
def Obligations.VerifyComparesFourBytes : Prop :=
  ∀ (s : State) (b sum : List Byte), InRange s.ops.payAddr.toNat s.hdr.dataLen.toNat →
    b.length = s.hdr.dataLen.toNat → HoldsBytes s.mem s.ops.payAddr.toNat b →
    sum.length = 4 → s.hdr.checksum = le32 sum →
    ∃ t, exec (.verify true true) s = .next t ∧ (t.status.valid = true ↔ cksum params b = sum) ∧
      (t.status.valid = true ↔ le32 (cksum params b) = s.hdr.checksum)

/-- R148: a mismatch, and an absent message or payload, are results with ERR = NONE. -/
def Obligations.MismatchIsNoError : Prop :=
  (∀ (s : State) (m p : Bool), m = false ∨ p = false →
    ∃ t, exec (.verify m p) s = .next t ∧ t.status.valid = false ∧ t.status.err = .none ∧ irq t = s.ie) ∧
  (∀ (s : State) (b : List Byte), InRange s.ops.payAddr.toNat s.hdr.dataLen.toNat →
    b.length = s.hdr.dataLen.toNat → HoldsBytes s.mem s.ops.payAddr.toNat b →
    le32 (cksum params b) ≠ s.hdr.checksum →
    ∃ t, exec (.verify true true) s = .next t ∧ t.status.valid = false ∧ t.status.err = .none ∧ irq t = s.ie)

/-- R149: CKSUM and VERIFY over the same bytes compute the same CKSUM_OUT, VERIFY with HDR_CHECKSUM set to it gives VALID = 1,
and each command repeated on unchanged inputs gives the same results. -/
def Obligations.ChecksumCommandsAgree : Prop :=
  ∀ (s : State) (b : List Byte), InRange s.ops.payAddr.toNat b.length → HoldsBytes s.mem s.ops.payAddr.toNat b →
    s.ops.payLen.toNat = b.length → s.hdr.dataLen.toNat = b.length →
    ∃ t u v, exec .cksum s = .next t ∧ exec (.verify true true) s = .next u ∧ t.cksumOut = u.cksumOut ∧
      exec (.verify true true) { s with hdr := { s.hdr with checksum := t.cksumOut } } = .next v ∧
      v.status.valid = true ∧ exec .cksum t = .next t ∧ exec (.verify true true) u = .next u

/-! ## FRAME (42_framer.md) -/

/-- R171 and R172: with its regions in MEM, its output clear of its inputs and its inputs written, FRAME writes the wire
message at DST_ADDR, its length to OUT_LEN and its checksum to CKSUM_OUT, and changes nothing else but STATUS. -/
def Obligations.FrameWritesMessage : Prop :=
  ∀ (s : State) (name p : List Byte),
    InRange s.ops.cmdAddr.toNat (min s.ops.cmdLen.toNat 12) → InRange s.ops.payAddr.toNat s.ops.payLen.toNat →
    InRange s.ops.dstAddr.toNat (24 + s.ops.payLen.toNat) →
    (∀ x, InRegion x s.ops.dstAddr.toNat (24 + s.ops.payLen.toNat) →
      ¬ InRegion x s.ops.cmdAddr.toNat (min s.ops.cmdLen.toNat 12) ∧
      ¬ InRegion x s.ops.payAddr.toNat s.ops.payLen.toNat) →
    IsName s.mem s.ops.cmdAddr.toNat (min s.ops.cmdLen.toNat 12) name →
    p.length = s.ops.payLen.toNat → HoldsBytes s.mem s.ops.payAddr.toNat p →
    ∃ t, exec .frame s = .next t ∧
      HoldsBytes t.mem s.ops.dstAddr.toNat
        (unle32 s.ops.magic ++ (name ++ zeros (12 - name.length)) ++ unle32 s.ops.payLen ++ cksum params p ++ p) ∧
      (∀ x, ¬ InRegion x s.ops.dstAddr.toNat (24 + s.ops.payLen.toNat) → readByte t.mem x = readByte s.mem x) ∧
      t = { s with
        mem := t.mem, outLen := BitVec.ofNat 32 (24 + s.ops.payLen.toNat), cksumOut := le32 (cksum params p),
        status := { busy := false, done := true, valid := false, err := .none } }

/-- R171, R203, R204 and R209: FRAME's errors. RANGE when one of its three regions runs past MEM; OVERLAP when all are in range
and the output shares a byte with an input. -/
def Obligations.FrameErrors : Prop :=
  ∀ s : State,
    (¬ (InRange s.ops.cmdAddr.toNat (min s.ops.cmdLen.toNat 12) ∧
        InRange s.ops.payAddr.toNat s.ops.payLen.toNat ∧
        InRange s.ops.dstAddr.toNat (24 + s.ops.payLen.toNat)) →
      exec .frame s = .next { s with status := { busy := false, done := true, valid := false, err := .range } }) ∧
    (InRange s.ops.cmdAddr.toNat (min s.ops.cmdLen.toNat 12) → InRange s.ops.payAddr.toNat s.ops.payLen.toNat →
      InRange s.ops.dstAddr.toNat (24 + s.ops.payLen.toNat) →
      (∃ x, InRegion x s.ops.dstAddr.toNat (24 + s.ops.payLen.toNat) ∧
        (InRegion x s.ops.cmdAddr.toNat (min s.ops.cmdLen.toNat 12) ∨
          InRegion x s.ops.payAddr.toNat s.ops.payLen.toNat)) →
      exec .frame s = .next { s with status := { busy := false, done := true, valid := false, err := .overlap } })

/-- R171 and R209: when every check passes, FRAME faults on an unwritten payload byte, and on an unwritten byte of the name
that no earlier zero byte hides (R170). -/
def Obligations.FrameNeedsItsInputs : Prop :=
  ∀ s : State,
    InRange s.ops.cmdAddr.toNat (min s.ops.cmdLen.toNat 12) → InRange s.ops.payAddr.toNat s.ops.payLen.toNat →
    InRange s.ops.dstAddr.toNat (24 + s.ops.payLen.toNat) →
    (∀ x, InRegion x s.ops.dstAddr.toNat (24 + s.ops.payLen.toNat) →
      ¬ InRegion x s.ops.cmdAddr.toNat (min s.ops.cmdLen.toNat 12) ∧
      ¬ InRegion x s.ops.payAddr.toNat s.ops.payLen.toNat) →
    (HasUnwritten s.mem s.ops.payAddr.toNat s.ops.payLen.toNat ∨
      ∃ k, k < min s.ops.cmdLen.toNat 12 ∧ readByte s.mem (s.ops.cmdAddr.toNat + k) = none ∧
        ∀ j, j < k → readByte s.mem (s.ops.cmdAddr.toNat + j) ≠ some 0#8) →
    exec .frame s = .fault .uninitRead

/-- R173: with PAY_LEN = 0 FRAME writes exactly 24 bytes, and MEM from DST_ADDR + 24 on is unchanged. -/
def Obligations.FrameWithoutPayload : Prop :=
  ∀ s t : State, exec .frame s = .next t → t.status.err = .none → s.ops.payLen = 0 →
    (∀ i, i < 24 → (readByte t.mem (s.ops.dstAddr.toNat + i)).isSome = true) ∧ t.outLen = 24#32 ∧
    (∀ x, s.ops.dstAddr.toNat + 24 ≤ x → readByte t.mem x = readByte s.mem x) ∧
    (∀ x, x < s.ops.dstAddr.toNat → readByte t.mem x = readByte s.mem x)

/-- R174: from a name of twelve or more significant bytes the command field takes exactly the first twelve; and FRAME writes the
field at output bytes 4 to 15 only, the bytes either side being the magic's and the length's. -/
def Obligations.FrameTruncatesLongName : Prop :=
  (∀ (m : Memory) (a : Nat) (len : Word) (name : List Byte), 12 ≤ len.toNat → name.length = 12 → (0#8) ∉ name →
    HoldsBytes m a name → cmdField m a len = some name) ∧
  (∀ s t : State, exec .frame s = .next t → t.status.err = .none →
    ∃ f, cmdField s.mem s.ops.cmdAddr.toNat s.ops.cmdLen = some f ∧ f.length = 12 ∧
      HoldsBytes t.mem s.ops.dstAddr.toNat (unle32 s.ops.magic) ∧
      HoldsBytes t.mem (s.ops.dstAddr.toNat + 4) f ∧
      HoldsBytes t.mem (s.ops.dstAddr.toNat + 16) (unle32 s.ops.payLen))

/-- R177: when FRAME succeeds its message fits in MEM, and OUT_LEN is its exact length, the number of bytes written. -/
def Obligations.FrameLengthIsExact : Prop :=
  ∀ s t : State, exec .frame s = .next t → t.status.err = .none →
    24 + s.ops.payLen.toNat ≤ 2 ^ params.memAw ∧ 2 ^ params.memAw ≤ 2 ^ 31 ∧
    t.outLen.toNat = 24 + s.ops.payLen.toNat ∧
    (∀ i, i < t.outLen.toNat → (readByte t.mem (s.ops.dstAddr.toNat + i)).isSome = true) ∧
    (∀ x, ¬ InRegion x s.ops.dstAddr.toNat t.outLen.toNat → readByte t.mem x = readByte s.mem x) ∧
    (s.ops.payLen = 0 → t.outLen = 24#32)

/-- R171 and R22: FRAME writes only MEM, OUT_LEN, CKSUM_OUT and STATUS, and of MEM only its output region. -/
def Obligations.FrameLeavesTheRest : Prop :=
  ∀ s t : State, exec .frame s = .next t →
    t = { s with mem := t.mem, outLen := t.outLen, cksumOut := t.cksumOut, status := t.status } ∧
    (∀ x, ¬ InRegion x s.ops.dstAddr.toNat (24 + s.ops.payLen.toNat) → readByte t.mem x = readByte s.mem x)

/-- R176, the headline: what FRAME frames, PARSE parses back and VERIFY finds valid. -/
def Obligations.FrameParseVerifyRoundTrip : Prop :=
  ∀ s t : State, exec .frame s = .next t → t.status.err = .none →
    ∃ u v,
      exec .parse { t with ops := { t.ops with srcAddr := s.ops.dstAddr, payAddr := s.ops.dstAddr + 24#32 } } = .next u ∧
      u.status.err = .none ∧ u.hdr.dataLen = s.ops.payLen ∧ u.hdr.checksum = t.cksumOut ∧
      u.hdr.magic = s.ops.magic ∧
      exec (.verify true true) u = .next v ∧ v.status.valid = true ∧ v.status.err = .none

/-! ## Errors and completion (60_exceptions.md) -/

/-- R200: every command that ends, ends in one completion, and one that fails writes nothing but STATUS. -/
def Obligations.FailedCommandWritesOnlyStatus : Prop :=
  ∀ (i : Instr) (s t : State), exec i s = .next t →
    t.status.busy = false ∧ t.status.done = true ∧
    (t.status.err ≠ .none → t = { s with status := t.status })

/-- R211: completion clears BUSY, sets DONE, and leaves VALID = 0 with any error; no command but VERIFY sets VALID (R27). -/
def Obligations.CompletionFlags : Prop :=
  ∀ (i : Instr) (s t : State), exec i s = .next t →
    t.status.busy = false ∧ t.status.done = true ∧ (t.status.err ≠ .none → t.status.valid = false) ∧
    (t.status.valid = true → i = .verify true true) ∧ t.status.err ≠ .illegalCmd ∧
    (t.status.err = .overlap → i = .frame)

/-- R206 and R209: a command that does not complete faults with UNINIT_READ, and only when a byte of one of its input regions,
inside MEM, is unwritten. -/
def Obligations.CommandFaultsOnlyOnUnwrittenByte : Prop :=
  ∀ (i : Instr) (s : State) (f : Fault), exec i s = .fault f →
    f = .uninitRead ∧ ∃ x, x < 2 ^ params.memAw ∧ readByte s.mem x = none ∧
      match i with
      | .parse => InRegion x s.ops.srcAddr.toNat 24
      | .cksum => InRegion x s.ops.payAddr.toNat s.ops.payLen.toNat
      | .verify m p => m = true ∧ p = true ∧ InRegion x s.ops.payAddr.toNat s.hdr.dataLen.toNat
      | .frame => InRegion x s.ops.cmdAddr.toNat (min s.ops.cmdLen.toNat 12) ∨
          InRegion x s.ops.payAddr.toNat s.ops.payLen.toNat

/-- R2 and R93: the model gives every command a meaning: none is refused in any state. -/
def Obligations.NoCommandIsRefused : Prop :=
  ∀ (i : Instr) (s : State) (r : Refusal), exec i s ≠ .refused r

/-- R22's column "engine writes it": no command writes CTRL, an operand register, the latched operation or the level of RST;
each result is written by the commands the map names. -/
def Obligations.EngineWritesOnlyItsResults : Prop :=
  ∀ (i : Instr) (s t : State), exec i s = .next t →
    t.ie = s.ie ∧ t.ops = s.ops ∧ t.lop = s.lop ∧ t.rst = s.rst ∧ t.events = s.events ∧ t.reads = s.reads ∧
    (i ≠ .parse → t.hdr = s.hdr) ∧ (i ≠ .frame → t.outLen = s.outLen ∧ t.mem = s.mem) ∧
    (i = .parse → t.cksumOut = s.cksumOut)

/-- R213 and R214: IRQ is IE AND DONE. It has the level of IE after every completion, is cleared by acknowledging and by a CMD
write of a legal word, and a read of STATUS leaves it. -/
def Obligations.InterruptLevel : Prop :=
  (∀ (i : Instr) (s t : State), exec i s = .next t → irq t = s.ie) ∧
  (∀ (s : State) (es : List Event), IdleNext s ackDone es → ∃ t, step s = .next t ∧ irq t = false) ∧
  (∀ (s : State) (i : Instr) (es : List Event), IdleNext s (cmd i) es → ∃ t, step s = .next t ∧ irq t = false) ∧
  (∀ (s : State) (es : List Event), IdleNext s (rd .status) es → ∃ t, step s = .next t ∧ irq t = irq s)

/-- R26 and R214: a step clears DONE only at a 32-bit STATUS write with bit 1 set, at a 32-bit CMD write of a legal word while IDLE,
or at reset; a write may come through its register's own platform address. -/
def Obligations.DoneIsClearedOnlyBy : Prop :=
  ∀ s t : State, step s = .next t → s.status.done = true → t.status.done = false →
    ∃ e es, s.events = e :: es ∧
      (e = .assertRst ∨ (e = .releaseRst ∧ s.rst = true) ∨
        ∃ (off : Nat) (v : Word), s.rst = false ∧
          (e = .access ⟨.reg, .w32, off, .write v⟩ ∨ e = .platform (params.regBase + off) .w32 (.write v)) ∧
          (off = 0x008 ∧ v.getLsbD 1 = true ∨
            off = 0x00C ∧ s.status.busy = false ∧ ∃ i, decode v = .legal i))

/-! ## Registers and the register port (10_state.md, 20_memory.md R65) -/

/-- R22: what a host read of each register returns while IDLE, with no side effect (R74). STATUS is another statement's. -/
def Obligations.RegisterReads : Prop :=
  ∀ (s : State) (es : List Event) (r : RegName) (v : Word), IdleNext s (rd r) es →
    (r, v) ∈ [(RegName.id, 0x56434844#32), (.ctrl, if s.ie then 1#32 else 0#32), (.cmd, 0#32),
      (.srcAddr, s.ops.srcAddr), (.payAddr, s.ops.payAddr), (.payLen, s.ops.payLen), (.cmdAddr, s.ops.cmdAddr),
      (.cmdLen, s.ops.cmdLen), (.dstAddr, s.ops.dstAddr), (.magic, s.ops.magic), (.outLen, s.outLen),
      (.cksumOut, s.cksumOut), (.hdrMagic, s.hdr.magic), (.hdrCmd0, s.hdr.cmd0), (.hdrCmd1, s.hdr.cmd1),
      (.hdrCmd2, s.hdr.cmd2), (.hdrDataLen, s.hdr.dataLen), (.hdrChecksum, s.hdr.checksum)] →
    step s = .next { s with events := es, reads := v :: s.reads }

/-- R23: ID always reads 0x56434844 and ignores writes without error. -/
def Obligations.IdRegister : Prop :=
  ∀ (s : State) (es : List Event),
    (s.rst = false → s.events = rd .id :: es →
      step s = .next { s with events := es, reads := 0x56434844#32 :: s.reads }) ∧
    (∀ v, IdleNext s (wr .id v) es → step s = .next { s with events := es })

/-- R24: CTRL keeps bit 0 of what is written, reads back that bit alone, is accessible while BUSY, resets to 0, and gates IRQ. -/
def Obligations.CtrlKeepsBitZero : Prop :=
  State.reset.ie = false ∧
  ∀ (s : State) (v : Word) (es : List Event), s.rst = false → s.events = wr .ctrl v :: rd .ctrl :: es →
    ∃ t, stepsFrom 2 s = .next t ∧
      t = { s with ie := v.getLsbD 0, events := es, reads := (v &&& 1#32) :: s.reads } ∧
      irq t = (v.getLsbD 0 && s.status.done)

/-- R25 to R29: STATUS reads BUSY in bit 0, DONE in bit 1, VALID in bit 2, ERR in bits 7:4 and 0 elsewhere, with no side
effect, BUSY or not. -/
def Obligations.StatusLayout : Prop :=
  ∀ (s : State) (es : List Event), s.rst = false → s.events = rd .status :: es →
    ∃ w : Word, step s = .next { s with events := es, reads := w :: s.reads } ∧
      w.getLsbD 0 = s.status.busy ∧ w.getLsbD 1 = s.status.done ∧ w.getLsbD 2 = s.status.valid ∧
      w.getLsbD 3 = false ∧ w.toNat < 256 ∧
      w.toNat / 16 = (match s.status.err with | .none => 0 | .illegalCmd => 1 | .range => 2 | .overlap => 3)

/-- R26 and R29: a host write of STATUS clears DONE when its bit 1 is set and changes nothing else. -/
def Obligations.StatusWriteClearsDone : Prop :=
  ∀ (s : State) (v : Word) (es : List Event), IdleNext s (wr .status v) es →
    step s = .next { s with
      status := { s.status with done := if v.getLsbD 1 then false else s.status.done }, events := es }

/-- R31 to R37 and R40 to R43: every operand and header register holds any value a host writes while IDLE, and the write reaches
no other register and no byte of MEM. -/
def Obligations.HostWritesHold : Prop :=
  ∀ (s : State) (v : Word) (es : List Event) (r : RegName),
    r ∈ [RegName.srcAddr, .payAddr, .payLen, .cmdAddr, .cmdLen, .dstAddr, .magic, .hdrMagic, .hdrCmd0, .hdrCmd1,
      .hdrCmd2, .hdrDataLen, .hdrChecksum] →
    IdleNext s (wr r v) (rd r :: es) →
    ∃ t, stepsFrom 2 s = .next t ∧ t.reads = v :: s.reads ∧ t.events = es ∧ t.mem = s.mem ∧
      t.lop = s.lop ∧ t.rst = s.rst ∧ readReg t r = v ∧ ∀ q, q ≠ r → readReg t q = readReg s q

/-- R22, R38 and R39: writes of ID, OUT_LEN and CKSUM_OUT while IDLE are ignored, with no error. -/
def Obligations.ReadOnlyRegistersIgnoreWrites : Prop :=
  ∀ (s : State) (v : Word) (es : List Event) (r : RegName), r ∈ [RegName.id, .outLen, .cksumOut] →
    IdleNext s (wr r v) es → step s = .next { s with events := es }

/-- R45: what the host may do while BUSY, and that every other access gets a bus error. The W1C of DONE has no effect there
since DONE is 0 while BUSY (the invariant `BlockInv.busy`). -/
def Obligations.AccessWhileBusy : Prop :=
  ∀ (s : State) (a : Access) (es : List Event), BusyNext s (.access a) es →
    (∀ r, r ∈ [RegName.id, .ctrl, .status] → a = ⟨.reg, .w32, r.offset, .read⟩ →
      step s = .next { s with events := es, reads := readReg s r :: s.reads }) ∧
    (∀ v, a = ⟨.reg, .w32, 0x004, .write v⟩ → step s = .next { s with ie := v.getLsbD 0, events := es }) ∧
    (∀ v, a = ⟨.reg, .w32, 0x008, .write v⟩ → s.status.done = false → step s = .next { s with events := es }) ∧
    ((∀ off op, off ∈ [0x000, 0x004, 0x008] → (off = 0x000 → op = .read) → a ≠ ⟨.reg, .w32, off, op⟩) →
      step s = .fault .busError)

/-- R207: a host access gets a bus error in exactly the listed cases. -/
def Obligations.BusErrorExactly : Prop :=
  ∀ (s : State) (a : Access) (es : List Event), s.events = .access a :: es →
    (step s = .fault .busError ↔
      s.rst = true ∨
      (a.port = .reg ∧
        (a.width ≠ .w32 ∨ a.offset % 4 ≠ 0 ∨
          a.offset ∉ [0x000, 0x004, 0x008, 0x00C, 0x010, 0x014, 0x018, 0x01C, 0x020, 0x024, 0x028, 0x02C, 0x030,
            0x040, 0x044, 0x048, 0x04C, 0x050, 0x054] ∨
          (s.status.busy = true ∧ ¬ (a.offset = 0x000 ∧ a.op = .read ∨ a.offset = 0x004 ∨ a.offset = 0x008)))) ∨
      (a.port = .mem ∧
        (a.offset % a.width.bytes ≠ 0 ∨ 2 ^ params.memAw < a.offset + a.width.bytes ∨ s.status.busy = true)))

/-- R61 and R75: for every choice of the parameters, an access at a platform address in one window only is the access at its
offset on that window's port; the block's step is that of its own parameters. -/
def Obligations.WindowsReachTheirPorts : Prop :=
  (∀ s : State, step s = agentStep params exec s) ∧
  ∀ (c : Params) (s : State) (addr : Nat) (w : Width) (op : BusOp) (es : List Event),
    s.events = .platform addr w op :: es →
    (InRegion addr c.regBase 4096 → ¬ InRegion addr c.memBase (2 ^ c.memAw) →
      agentStep c exec s = agentStep c exec { s with events := .access ⟨.reg, w, addr - c.regBase, op⟩ :: es }) ∧
    (InRegion addr c.memBase (2 ^ c.memAw) → ¬ InRegion addr c.regBase 4096 →
      agentStep c exec s = agentStep c exec { s with events := .access ⟨.mem, w, addr - c.memBase, op⟩ :: es })

/-! ## Buffer memory (20_memory.md) -/

/-- R11: the packing, and that packing and unpacking undo each other. -/
def Obligations.PackingRoundTrip : Prop :=
  (∀ b0 b1 b2 b3 : Byte,
    (le32 [b0, b1, b2, b3]).toNat = b0.toNat + 2 ^ 8 * b1.toNat + 2 ^ 16 * b2.toNat + 2 ^ 24 * b3.toNat ∧
      unle32 (le32 [b0, b1, b2, b3]) = [b0, b1, b2, b3]) ∧
  (∀ v : Word, unle32 v = [v.extractLsb' 0 8, v.extractLsb' 8 8, v.extractLsb' 16 8, v.extractLsb' 24 8] ∧
    le32 (unle32 v) = v)

/-- R69 and R6: `region_ok` over unbounded naturals, with MEM_BYTES = 2^MEM_AW and MEM_AW from 5 to 31. -/
def Obligations.RegionCheck : Prop :=
  5 ≤ params.memAw ∧ params.memAw ≤ 31 ∧
  ∀ a n : Nat, regionOk params a n = true ↔ n = 0 ∨ a + n ≤ 2 ^ params.memAw

/-- R70: `overlap` is true exactly when the two regions share at least one byte. -/
def Obligations.OverlapIsASharedByte : Prop :=
  ∀ a n b m : Nat,
    (overlap a n b m = true ↔ 0 < n ∧ 0 < m ∧ a < b + m ∧ b < a + n) ∧
    (overlap a n b m = true ↔ ∃ x, InRegion x a n ∧ InRegion x b m)

/-- R62 and R64: an accepted host write stores the value's low bytes, least significant first, marks them written, and changes
nothing else. -/
def Obligations.HostBufferWrite : Prop :=
  ∀ (s : State) (w : Width) (a : Nat) (v : Word) (es : List Event), IdleNext s (mw w a v) es →
    a % w.bytes = 0 → a + w.bytes ≤ 2 ^ params.memAw →
    ∃ t, step s = .next t ∧
      (∀ i, i < w.bytes → readByte t.mem (a + i) = some (v.extractLsb' (8 * i) 8)) ∧
      (∀ x, ¬ InRegion x a w.bytes → readByte t.mem x = readByte s.mem x) ∧
      t = { s with mem := t.mem, events := es }

/-- R62 and R64: an accepted host read returns the bytes as a little-endian number, zero-extended, and changes nothing; on an
unwritten byte it is the model fault UNINIT_READ. -/
def Obligations.HostBufferRead : Prop :=
  ∀ (s : State) (w : Width) (a : Nat) (es : List Event), IdleNext s (mr w a) es →
    a % w.bytes = 0 → a + w.bytes ≤ 2 ^ params.memAw →
    (∀ b : List Byte, b.length = w.bytes → HoldsBytes s.mem a b →
      ∃ v : Word, step s = .next { s with events := es, reads := v :: s.reads } ∧
        v.toNat = ((List.range w.bytes).map (fun i => (b.getD i 0).toNat * 2 ^ (8 * i))).sum) ∧
    (HasUnwritten s.mem a w.bytes → step s = .fault .uninitRead)

/-- R68: mixed-width accesses see the same bytes: a byte of a word written reads back as that byte, and a word read from the
length or checksum field of a header is what PARSE gives for it. -/
def Obligations.MixedWidthAccesses : Prop :=
  (∀ (s : State) (a i : Nat) (v : Word) (es : List Event), IdleNext s (mw .w32 a v) (mr .w8 (a + i) :: es) →
    a % 4 = 0 → a + 4 ≤ 2 ^ params.memAw → i < 4 →
    ∃ t, stepsFrom 2 s = .next t ∧ t.reads = (v.extractLsb' (8 * i) 8).setWidth 32 :: s.reads) ∧
  (∀ (s u : State) (es : List Event), exec .parse { s with events := es } = .next u → u.status.err = .none →
    s.ops.srcAddr.toNat % 4 = 0 →
    (IdleNext s (mr .w32 (s.ops.srcAddr.toNat + 16)) es →
      step s = .next { s with events := es, reads := u.hdr.dataLen :: s.reads }) ∧
    (IdleNext s (mr .w32 (s.ops.srcAddr.toNat + 20)) es →
      step s = .next { s with events := es, reads := u.hdr.checksum :: s.reads }))

/-- R60, R64, R71 and R73: a step changes a byte of MEM only by an aligned host write inside MEM that covers it, while IDLE, at its
offset or through that offset's own platform address; by the completion of a FRAME whose output covers it; or by reset. -/
def Obligations.MemChangesOnlyBy : Prop :=
  ∀ (s t : State) (x : Nat), step s = .next t → readByte t.mem x ≠ readByte s.mem x →
    (s.rst = false ∧ s.status.busy = true ∧ s.lop = .frame ∧ (s.events = [] ∨ ∃ es, s.events = .engine :: es) ∧
      t.status.err = .none ∧ InRegion x s.ops.dstAddr.toNat (24 + s.ops.payLen.toNat)) ∨
    ∃ e es, s.events = e :: es ∧
      (e = .assertRst ∨ (e = .releaseRst ∧ s.rst = true) ∨
        (s.rst = false ∧ s.status.busy = false ∧ ∃ (w : Width) (off : Nat) (v : Word),
          (e = .access ⟨.mem, w, off, .write v⟩ ∨ e = .platform (params.memBase + off) w (.write v)) ∧
          off % w.bytes = 0 ∧ off + w.bytes ≤ 2 ^ params.memAw ∧ InRegion x off w.bytes))

/-- R246: while BUSY no host access changes an input of the command in flight, nor a result. -/
def Obligations.InputsFixedWhileBusy : Prop :=
  ∀ (s t : State) (e : Event) (es : List Event), BusyNext s e es → step s = .next t →
    ((∃ a, e = .access a) ∨ ∃ addr w op, e = .platform addr w op) →
    t.ops = s.ops ∧ t.hdr = s.hdr ∧ t.mem = s.mem ∧ t.lop = s.lop ∧ t.outLen = s.outLen ∧
      t.cksumOut = s.cksumOut ∧ t.status.busy = true

/-! ## Reset (70_reset_and_hazards.md) and the invariant -/

/-- R49: after reset ID reads its constant, every other register 0, IRQ is 0 and no byte of MEM is written. -/
def Obligations.ResetState : Prop :=
  (∀ r : RegName, readReg State.reset r = if r = .id then 0x56434844#32 else 0#32) ∧
  irq State.reset = false ∧ ∀ a, readByte State.reset.mem a = none

/-- R240 and R241: asserted and released from any state, RST leaves the block at its reset values; while it is asserted every
access gets a bus error and no command completes. That the block is at its reset values already while it is asserted is the
model's reading (log entry 11), and that an engine's turn while it is asserted takes its event and nothing more is its choice (log entry
12). -/
def Obligations.ResetFromAnyState : Prop :=
  (∀ (s : State) (es : List Event), s.events = .assertRst :: .releaseRst :: es →
    ∃ u t, step s = .next u ∧ u.rst = true ∧ AtReset u ∧ stepsFrom 2 s = .next t ∧
      t.rst = false ∧ AtReset t ∧ t.events = es ∧ t.reads = s.reads) ∧
  (∀ (s : State) (a : Access) (es : List Event), s.rst = true → s.events = .access a :: es →
    step s = .fault .busError) ∧
  (∀ (s : State) (es : List Event), s.rst = true → s.events = .engine :: es → step s = .next { s with events := es })

/-- The invariant, the other headline: every step keeps MEM in canonical form and inside its size (R60), the flags consistent
(R30, R211, R215), OUT_LEN a possible message length (R38, R177) and a block held in reset at its reset values (R240; log entry 11). -/
def Obligations.StepKeepsInvariant : Prop :=
  ∀ s t : State, BlockInv s → step s = .next t → BlockInv t

/-- The state right after reset meets the invariant. -/
def Obligations.ResetMeetsInvariant : Prop :=
  BlockInv State.reset
end

