-- ==== Sys2Proof/Laws/Bytes.lean ====
section
/-! SUPPORT. The laws of the byte-order conversions and of the operand forms (00_scope.md R10 to R12). -/

namespace Sys2Proof.Machine

@[simp] theorem length_leBytes (n : Nat) (v : Word) : (leBytes n v).length = n := by
  induction n generalizing v with
  | zero => rfl
  | succ n ih => simp [leBytes, ih]

@[simp] theorem length_unle32 (v : Word) : (unle32 v).length = 4 := length_leBytes 4 v

@[simp] theorem length_zeros (n : Nat) : (zeros n).length = n := List.length_replicate

@[simp] theorem length_cksum (c : Params) (s : List Byte) : (cksum c s).length = 4 := rfl

/-- A little-endian number of `n` bytes is below `256^n`. -/
theorem leNat_lt (s : List Byte) : leNat s < 256 ^ s.length := by
  induction s with
  | nil => simp [leNat]
  | cons b bs ih =>
    have hb : b.toNat < 256 := b.isLt
    rw [leNat, List.length_cons, Nat.pow_succ]
    omega

/-- Byte `i` of `leBytes n v` is `v[8i+7:8i]` (20_memory.md R62). -/
theorem getElem?_leBytes (n : Nat) (v : Word) (i : Nat) :
    (leBytes n v)[i]? = if i < n then some ((v >>> (8 * i)).setWidth 8) else none := by
  induction n generalizing v i with
  | zero => simp [leBytes]
  | succ n ih =>
    cases i with
    | zero => simp [leBytes]
    | succ i =>
      rw [leBytes, List.getElem?_cons_succ, ih, ← BitVec.shiftRight_add, show 8 + 8 * i = 8 * (i + 1) by omega]
      simp

/-- Reading back `n` bytes of a word gives it modulo `256^n`. -/
theorem leNat_leBytes (n : Nat) (v : Word) : leNat (leBytes n v) = v.toNat % 256 ^ n := by
  induction n generalizing v with
  | zero => simp [leBytes, leNat, Nat.mod_one]
  | succ n ih =>
    rw [leBytes, leNat, ih]
    have hp : 256 ^ (n + 1) = 2 ^ 8 * 256 ^ n := by
      rw [Nat.pow_succ, Nat.mul_comm]
      rfl
    rw [BitVec.toNat_setWidth, BitVec.toNat_ushiftRight, Nat.shiftRight_eq_div_pow, hp, Nat.mod_mul]
    rfl

/-- The number of a byte string of at most 4 bytes fits a register. -/
theorem toNat_le32 {s : List Byte} (h : s.length ≤ 4) : (le32 s).toNat = leNat s := by
  have h1 := leNat_lt s
  have h2 : 256 ^ s.length ≤ 256 ^ 4 := Nat.pow_le_pow_right (by decide) h
  unfold le32
  rw [BitVec.toNat_ofNat]
  exact Nat.mod_eq_of_lt (by omega)

/-- Two byte strings of one length that make the same number are the same. -/
theorem leNat_injective {s t : List Byte} (hl : s.length = t.length) (h : leNat s = leNat t) : s = t := by
  induction s generalizing t with
  | nil => exact (List.length_eq_zero_iff.mp hl.symm).symm
  | cons b bs ih =>
    cases t with
    | nil => simp at hl
    | cons d ds =>
      have hb : b.toNat < 256 := b.isLt
      have hd : d.toNat < 256 := d.isLt
      simp only [leNat] at h
      have e1 : b.toNat = d.toNat := by omega
      have e2 : leNat bs = leNat ds := by omega
      rw [BitVec.eq_of_toNat_eq e1, ih (by simpa using hl) e2]

/-! ### Regions (20_memory.md R69, R70) -/

/-- `region_ok` says the region is empty or lies in MEM. -/
theorem regionOk_iff (a n : Nat) : regionOk params a n = true ↔ InRange a n := by
  simp [regionOk, InRange, Params.memBytes_eq]

/-- `overlap` says both regions have a byte and neither ends before the other begins. -/
theorem overlap_iff (a n b m : Nat) : overlap a n b m = true ↔ 0 < n ∧ 0 < m ∧ a < b + m ∧ b < a + n := by
  simp [overlap, and_assoc]

theorem nameLen_le (len : Word) : nameLen len ≤ 12 := Nat.min_le_right _ _

/-- A padded name of at most 12 bytes fills the command field (42_framer.md R170). -/
theorem length_padName {name : List Byte} (h : name.length ≤ 12) : (padName name).length = 12 := by
  have : (padName name).length = name.length + (12 - name.length) := by simp [padName]
  omega

/-- A name that memory holds is what FRAME reads (R170). -/
theorem nameBytes_of_isName {m : Memory} {a k : Nat} {name : List Byte} (h : IsName m a k name) :
    nameBytes m a k = some name := by
  induction k generalizing a name with
  | zero =>
    have : name = [] := List.length_eq_zero_iff.mp (Nat.le_zero.mp h.2.2.1)
    subst this
    rfl
  | succ k ih =>
    obtain ⟨hb, hz, hl, he⟩ := h
    cases name with
    | nil =>
      have h0 : readByte m a = some 0#8 := by
        rcases he with he | he
        · simp at he
        · simpa using he
      simp [nameBytes, h0]
    | cons b bs =>
      have h0 : readByte m a = some b := by simpa using hb 0 (by simp)
      have hne : b ≠ 0#8 := fun e => hz (by simp [e])
      have hrest : IsName m (a + 1) k bs := by
        refine ⟨fun i hi => ?_, fun hm => hz (List.mem_cons_of_mem _ hm), by simpa using hl, ?_⟩
        · have := hb (i + 1) (by simpa using hi)
          rw [show a + 1 + i = a + (i + 1) by omega, this]
          simp
        · rcases he with he | he
          · exact .inl (by simpa using he)
          · refine .inr ?_
            rw [show a + 1 + bs.length = a + (bs.length + 1) by omega]
            simpa using he
      simp [nameBytes, h0, hne, ih hrest]

/-- What FRAME reads as a name is one (R170). -/
theorem isName_of_nameBytes {m : Memory} {a k : Nat} {name : List Byte} (h : nameBytes m a k = some name) :
    IsName m a k name := by
  induction k generalizing a name with
  | zero =>
    have : [] = name := Option.some.inj h
    subst this
    exact ⟨fun i hi => absurd hi (by simp), by simp, by simp, .inl rfl⟩
  | succ k ih =>
    simp only [nameBytes] at h
    split at h
    · exact absurd h (by simp)
    · rename_i b h0
      split at h
      · rename_i hb
        have : [] = name := Option.some.inj h
        subst this
        exact ⟨fun i hi => absurd hi (by simp), by simp, by simp, .inr (by simpa [hb] using h0)⟩
      · rename_i hb
        obtain ⟨bs, hbs, rfl⟩ := Option.map_eq_some_iff.mp h
        obtain ⟨hh, hz, hl, he⟩ := ih hbs
        refine ⟨fun i hi => ?_, ?_, by simpa using hl, ?_⟩
        · cases i with
          | zero => simpa using h0
          | succ i =>
            have := hh i (by simpa using hi)
            rw [show a + (i + 1) = a + 1 + i by omega, this]
            simp
        · simp only [List.mem_cons, not_or]
          exact ⟨fun e => hb e.symm, hz⟩
        · rcases he with he | he
          · exact .inl (by simp [he])
          · refine .inr ?_
            rw [List.length_cons, show a + (bs.length + 1) = a + 1 + bs.length by omega]
            exact he

end Sys2Proof.Machine
end

