-- ==== Sys2Proof/Laws/Memory.lean ====
section
/-! SUPPORT. The laws of buffer memory: a read after a write, what a write leaves alone, and the canonical form. -/

namespace Sys2Proof.Machine

@[simp] theorem readByte_nil (a : Nat) : readByte [] a = none := rfl

/-- A read of the byte just written gives it. -/
theorem readByte_writeByte_same (m : Memory) (a : Nat) (v : Byte) : readByte (writeByte m a v) a = some v := by
  induction m with
  | nil => simp [writeByte, readByte]
  | cons e m ih =>
    obtain ⟨k, b⟩ := e
    unfold writeByte
    split
    · simp [readByte]
    · split
      · simp [readByte]
      · have : k ≠ a := by omega
        simp [readByte, this, ih]

/-- A write leaves every other byte alone, written or not. -/
theorem readByte_writeByte_other (m : Memory) {a x : Nat} (h : x ≠ a) (v : Byte) :
    readByte (writeByte m a v) x = readByte m x := by
  have h' : a ≠ x := fun e => h e.symm
  induction m with
  | nil => simp [writeByte, readByte, h', Memory.unlisted]
  | cons e m ih =>
    obtain ⟨k, b⟩ := e
    unfold writeByte
    split
    · simp [readByte, h']
    · split
      · rename_i hk
        subst hk
        simp [readByte, h']
      · simp [readByte, ih]

/-- What a write of a byte string leaves in each byte (R71). -/
theorem readByte_memWrite (m : Memory) (a : Nat) (s : List Byte) (x : Nat) :
    readByte (memWrite m a s) x = if a ≤ x ∧ x < a + s.length then s[x - a]? else readByte m x := by
  induction s generalizing m a with
  | nil =>
    have : ¬ (a ≤ x ∧ x < a) := by omega
    simp [memWrite, this]
  | cons b bs ih =>
    rw [memWrite, ih, List.length_cons]
    by_cases hx : x = a
    · subst hx
      simp [readByte_writeByte_same]
    · by_cases hin : a + 1 ≤ x ∧ x < a + 1 + bs.length
      · have hin' : a ≤ x ∧ x < a + (bs.length + 1) := by omega
        have hs : x - a = (x - (a + 1)) + 1 := by omega
        rw [if_pos hin, if_pos hin', hs]
        simp
      · have hin' : ¬ (a ≤ x ∧ x < a + (bs.length + 1)) := by omega
        rw [if_neg hin, if_neg hin', readByte_writeByte_other m hx]

/-- Inside a written region the bytes are the string's. -/
theorem readByte_memWrite_in (m : Memory) (a : Nat) (s : List Byte) {i : Nat} (h : i < s.length) :
    readByte (memWrite m a s) (a + i) = s[i]? := by
  have : a ≤ a + i ∧ a + i < a + s.length := by omega
  rw [readByte_memWrite, if_pos this]
  simp

/-- Outside a written region nothing changes. -/
theorem readByte_memWrite_out (m : Memory) (a : Nat) (s : List Byte) {x : Nat} (h : ¬ (a ≤ x ∧ x < a + s.length)) :
    readByte (memWrite m a s) x = readByte m x := by
  rw [readByte_memWrite, if_neg h]

/-- A byte string read is as long as it was asked for. -/
theorem memRead_length {m : Memory} {a n : Nat} {s : List Byte} (h : memRead m a n = some s) : s.length = n := by
  induction n generalizing a s with
  | zero => simp only [memRead, Option.some.injEq] at h; simp [← h]
  | succ n ih =>
    simp only [memRead] at h
    split at h
    · rename_i hs
      rw [← Option.some.inj h, List.length_cons, ih hs]
    · exact absurd h (by simp)

/-- MemRead answers exactly the bytes memory holds (R71). -/
theorem memRead_eq_some_iff (m : Memory) (a n : Nat) (s : List Byte) :
    memRead m a n = some s ↔ s.length = n ∧ HoldsBytes m a s := by
  induction n generalizing a s with
  | zero =>
    constructor
    · intro h
      have hs : [] = s := Option.some.inj h
      subst hs
      exact ⟨rfl, fun i hi => absurd hi (by simp)⟩
    · rintro ⟨h, -⟩
      rw [List.length_eq_zero_iff.mp h]
      rfl
  | succ n ih =>
    cases s with
    | nil =>
      refine ⟨fun h => absurd (memRead_length h) (by simp), fun h => absurd h.1 (by simp)⟩
    | cons b bs =>
      constructor
      · intro h
        refine ⟨memRead_length h, ?_⟩
        simp only [memRead] at h
        split at h
        · rename_i b' bs' hb hbs
          obtain ⟨rfl, rfl⟩ := List.cons.inj (Option.some.inj h)
          have hbs' := ((ih (a + 1) bs').mp hbs).2
          intro i hi
          cases i with
          | zero => simpa using hb
          | succ i =>
            have := hbs' i (by simpa using hi)
            rw [show a + (i + 1) = a + 1 + i by omega, this]
            simp
        · exact absurd h (by simp)
      · rintro ⟨hl, hb⟩
        have h0 : readByte m a = some b := by simpa using hb 0 (by simp)
        have h1 : memRead m (a + 1) n = some bs := by
          refine (ih (a + 1) bs).mpr ⟨by simpa using hl, fun i hi => ?_⟩
          have := hb (i + 1) (by simpa using hi)
          rw [show a + 1 + i = a + (i + 1) by omega, this]
          simp
        simp [memRead, h0, h1]

/-- MemRead fails exactly when a byte of the region is unwritten (R71). -/
theorem memRead_eq_none_iff (m : Memory) (a n : Nat) : memRead m a n = none ↔ HasUnwritten m a n := by
  induction n generalizing a with
  | zero => simp [memRead, HasUnwritten]
  | succ n ih =>
    have key : HasUnwritten m a (n + 1) ↔ readByte m a = none ∨ HasUnwritten m (a + 1) n := by
      constructor
      · rintro ⟨i, hi, hr⟩
        cases i with
        | zero => exact .inl (by simpa using hr)
        | succ i => exact .inr ⟨i, by omega, by rwa [show a + 1 + i = a + (i + 1) by omega]⟩
      · rintro (h | ⟨i, hi, hr⟩)
        · exact ⟨0, by omega, by simpa using h⟩
        · exact ⟨i + 1, by omega, by rwa [show a + (i + 1) = a + 1 + i by omega]⟩
    rw [key, ← ih (a + 1)]
    cases h0 : readByte m a <;> cases h1 : memRead m (a + 1) n <;> simp [memRead, h0, h1]

/-- Where memory reads the same, MemRead reads the same. -/
theorem memRead_congr {m m' : Memory} {a n : Nat} (h : ∀ i, i < n → readByte m (a + i) = readByte m' (a + i)) :
    memRead m a n = memRead m' a n := by
  induction n generalizing a with
  | zero => rfl
  | succ n ih =>
    have h0 : readByte m a = readByte m' a := by simpa using h 0 (by omega)
    have h1 : memRead m (a + 1) n = memRead m' (a + 1) n := by
      refine ih fun i hi => ?_
      have := h (i + 1) (by omega)
      rwa [show a + (i + 1) = a + 1 + i by omega] at this
    simp only [memRead, h0, h1]

/-! ### The canonical form -/

theorem memSorted_mono {lo lo' hi : Nat} {m : Memory} (h : memSorted lo hi m = true) (hl : lo' ≤ lo) :
    memSorted lo' hi m = true := by
  cases m with
  | nil => rfl
  | cons e m =>
    obtain ⟨k, b⟩ := e
    simp only [memSorted, Bool.and_eq_true, decide_eq_true_eq] at h ⊢
    exact ⟨⟨by omega, h.1.2⟩, h.2⟩

/-- A write of one byte keeps the canonical form. -/
theorem memSorted_writeByte {lo hi : Nat} {m : Memory} {a : Nat} {v : Byte} (h : memSorted lo hi m = true)
    (hl : lo ≤ a) (hh : a < hi) : memSorted lo hi (writeByte m a v) = true := by
  induction m generalizing lo with
  | nil => simp [writeByte, memSorted, hl, hh]
  | cons e m ih =>
    obtain ⟨k, b⟩ := e
    simp only [memSorted, Bool.and_eq_true, decide_eq_true_eq] at h
    unfold writeByte
    split
    · simp only [memSorted, Bool.and_eq_true, decide_eq_true_eq]
      exact ⟨⟨hl, hh⟩, ⟨by omega, h.1.2⟩, h.2⟩
    · split
      · rename_i hk
        subst hk
        simp only [memSorted, Bool.and_eq_true, decide_eq_true_eq]
        exact ⟨⟨hl, hh⟩, h.2⟩
      · simp only [memSorted, Bool.and_eq_true, decide_eq_true_eq]
        exact ⟨h.1, ih h.2 (by omega)⟩

/-- A write of a byte string that ends inside MEM keeps the canonical form. -/
theorem memWf_memWrite {hi : Nat} {m : Memory} {a : Nat} {s : List Byte} (h : memWf hi m = true)
    (hh : a + s.length ≤ hi) : memWf hi (memWrite m a s) = true := by
  induction s generalizing m a with
  | nil => exact h
  | cons b bs ih =>
    rw [List.length_cons] at hh
    exact ih (memSorted_writeByte h (Nat.zero_le _) (by omega)) (by omega)

/-- Memory right after reset is in canonical form (R73). -/
theorem reset_memWf (hi : Nat) : memWf hi State.reset.mem = true := rfl

/-- Memory in canonical form holds no byte before its first. -/
theorem readByte_none_of_lt {lo hi : Nat} {m : Memory} (h : memSorted lo hi m = true) {x : Nat} (hx : x < lo) :
    readByte m x = none := by
  induction m generalizing lo with
  | nil => rfl
  | cons e m ih =>
    obtain ⟨k, b⟩ := e
    simp only [memSorted, Bool.and_eq_true, decide_eq_true_eq] at h
    have : k ≠ x := by omega
    simp only [readByte, if_neg this]
    exact ih h.2 (by omega)

/-- Memory in canonical form holds no byte past its end (R60). -/
theorem readByte_none_of_ge {lo hi : Nat} {m : Memory} (h : memSorted lo hi m = true) {x : Nat} (hx : hi ≤ x) :
    readByte m x = none := by
  induction m generalizing lo with
  | nil => rfl
  | cons e m ih =>
    obtain ⟨k, b⟩ := e
    simp only [memSorted, Bool.and_eq_true, decide_eq_true_eq] at h
    have : k ≠ x := by omega
    simp only [readByte, if_neg this]
    exact ih h.2

/-- Memories in canonical form that read alike everywhere are equal. -/
theorem memory_ext {lo hi : Nat} {m m' : Memory} (h : memSorted lo hi m = true) (h' : memSorted lo hi m' = true)
    (e : ∀ x, readByte m x = readByte m' x) : m = m' := by
  induction m generalizing lo m' with
  | nil =>
    cases m' with
    | nil => rfl
    | cons c m' => exact absurd (e c.1) (by simp [readByte, Memory.unlisted])
  | cons c m ih =>
    cases m' with
    | nil => exact absurd (e c.1) (by simp [readByte, Memory.unlisted])
    | cons d m' =>
      obtain ⟨k, b⟩ := c
      obtain ⟨k', b'⟩ := d
      simp only [memSorted, Bool.and_eq_true, decide_eq_true_eq] at h h'
      have hk : k = k' := by
        rcases Nat.lt_trichotomy k k' with hlt | heq | hgt
        · have := e k
          rw [show readByte ((k', b') :: m') k = none from by
            rw [readByte, if_neg (by omega)]
            exact readByte_none_of_lt h'.2 (by omega)] at this
          simp [readByte] at this
        · exact heq
        · have := e k'
          rw [show readByte ((k, b) :: m) k' = none from by
            rw [readByte, if_neg (by omega)]
            exact readByte_none_of_lt h.2 (by omega)] at this
          simp [readByte] at this
      subst hk
      have hb : b = b' := by simpa [readByte] using e k
      subst hb
      rw [ih h.2 h'.2 fun x => ?_]
      by_cases hx : k = x
      · rw [readByte_none_of_lt h.2 (by omega), readByte_none_of_lt h'.2 (by omega)]
      · simpa [readByte, hx] using e x

end Sys2Proof.Machine
end

