-- ==== Sys2Proof/Laws/State.lean ====
section
/-! SUPPORT. What each named update leaves in each field of the state, one simp lemma per field per update. -/

namespace Sys2Proof.Machine

/-! ### `complete` -/

@[simp] theorem complete_ie (err : ErrCode) (valid : Bool) (s : State) : (complete err valid s).ie = s.ie := rfl
@[simp] theorem complete_status (err : ErrCode) (valid : Bool) (s : State) : (complete err valid s).status = completedStatus err valid := rfl
@[simp] theorem complete_ops (err : ErrCode) (valid : Bool) (s : State) : (complete err valid s).ops = s.ops := rfl
@[simp] theorem complete_outLen (err : ErrCode) (valid : Bool) (s : State) : (complete err valid s).outLen = s.outLen := rfl
@[simp] theorem complete_cksumOut (err : ErrCode) (valid : Bool) (s : State) : (complete err valid s).cksumOut = s.cksumOut := rfl
@[simp] theorem complete_hdr (err : ErrCode) (valid : Bool) (s : State) : (complete err valid s).hdr = s.hdr := rfl
@[simp] theorem complete_lop (err : ErrCode) (valid : Bool) (s : State) : (complete err valid s).lop = s.lop := rfl
@[simp] theorem complete_mem (err : ErrCode) (valid : Bool) (s : State) : (complete err valid s).mem = s.mem := rfl
@[simp] theorem complete_rst (err : ErrCode) (valid : Bool) (s : State) : (complete err valid s).rst = s.rst := rfl
@[simp] theorem complete_events (err : ErrCode) (valid : Bool) (s : State) : (complete err valid s).events = s.events := rfl
@[simp] theorem complete_reads (err : ErrCode) (valid : Bool) (s : State) : (complete err valid s).reads = s.reads := rfl

/-! ### `giveHost` -/

@[simp] theorem giveHost_ie (v : Word) (s : State) : (giveHost v s).ie = s.ie := rfl
@[simp] theorem giveHost_status (v : Word) (s : State) : (giveHost v s).status = s.status := rfl
@[simp] theorem giveHost_ops (v : Word) (s : State) : (giveHost v s).ops = s.ops := rfl
@[simp] theorem giveHost_outLen (v : Word) (s : State) : (giveHost v s).outLen = s.outLen := rfl
@[simp] theorem giveHost_cksumOut (v : Word) (s : State) : (giveHost v s).cksumOut = s.cksumOut := rfl
@[simp] theorem giveHost_hdr (v : Word) (s : State) : (giveHost v s).hdr = s.hdr := rfl
@[simp] theorem giveHost_lop (v : Word) (s : State) : (giveHost v s).lop = s.lop := rfl
@[simp] theorem giveHost_mem (v : Word) (s : State) : (giveHost v s).mem = s.mem := rfl
@[simp] theorem giveHost_rst (v : Word) (s : State) : (giveHost v s).rst = s.rst := rfl
@[simp] theorem giveHost_events (v : Word) (s : State) : (giveHost v s).events = s.events := rfl
@[simp] theorem giveHost_reads (v : Word) (s : State) : (giveHost v s).reads = v :: s.reads := rfl

/-! ### `setHdr` -/

@[simp] theorem setHdr_ie (h : HeaderRegs) (s : State) : (setHdr h s).ie = s.ie := rfl
@[simp] theorem setHdr_status (h : HeaderRegs) (s : State) : (setHdr h s).status = s.status := rfl
@[simp] theorem setHdr_ops (h : HeaderRegs) (s : State) : (setHdr h s).ops = s.ops := rfl
@[simp] theorem setHdr_outLen (h : HeaderRegs) (s : State) : (setHdr h s).outLen = s.outLen := rfl
@[simp] theorem setHdr_cksumOut (h : HeaderRegs) (s : State) : (setHdr h s).cksumOut = s.cksumOut := rfl
@[simp] theorem setHdr_hdr (h : HeaderRegs) (s : State) : (setHdr h s).hdr = h := rfl
@[simp] theorem setHdr_lop (h : HeaderRegs) (s : State) : (setHdr h s).lop = s.lop := rfl
@[simp] theorem setHdr_mem (h : HeaderRegs) (s : State) : (setHdr h s).mem = s.mem := rfl
@[simp] theorem setHdr_rst (h : HeaderRegs) (s : State) : (setHdr h s).rst = s.rst := rfl
@[simp] theorem setHdr_events (h : HeaderRegs) (s : State) : (setHdr h s).events = s.events := rfl
@[simp] theorem setHdr_reads (h : HeaderRegs) (s : State) : (setHdr h s).reads = s.reads := rfl

/-! ### `setCksumOut` -/

@[simp] theorem setCksumOut_ie (v : Word) (s : State) : (setCksumOut v s).ie = s.ie := rfl
@[simp] theorem setCksumOut_status (v : Word) (s : State) : (setCksumOut v s).status = s.status := rfl
@[simp] theorem setCksumOut_ops (v : Word) (s : State) : (setCksumOut v s).ops = s.ops := rfl
@[simp] theorem setCksumOut_outLen (v : Word) (s : State) : (setCksumOut v s).outLen = s.outLen := rfl
@[simp] theorem setCksumOut_cksumOut (v : Word) (s : State) : (setCksumOut v s).cksumOut = v := rfl
@[simp] theorem setCksumOut_hdr (v : Word) (s : State) : (setCksumOut v s).hdr = s.hdr := rfl
@[simp] theorem setCksumOut_lop (v : Word) (s : State) : (setCksumOut v s).lop = s.lop := rfl
@[simp] theorem setCksumOut_mem (v : Word) (s : State) : (setCksumOut v s).mem = s.mem := rfl
@[simp] theorem setCksumOut_rst (v : Word) (s : State) : (setCksumOut v s).rst = s.rst := rfl
@[simp] theorem setCksumOut_events (v : Word) (s : State) : (setCksumOut v s).events = s.events := rfl
@[simp] theorem setCksumOut_reads (v : Word) (s : State) : (setCksumOut v s).reads = s.reads := rfl

/-! ### `setOutLen` -/

@[simp] theorem setOutLen_ie (v : Word) (s : State) : (setOutLen v s).ie = s.ie := rfl
@[simp] theorem setOutLen_status (v : Word) (s : State) : (setOutLen v s).status = s.status := rfl
@[simp] theorem setOutLen_ops (v : Word) (s : State) : (setOutLen v s).ops = s.ops := rfl
@[simp] theorem setOutLen_outLen (v : Word) (s : State) : (setOutLen v s).outLen = v := rfl
@[simp] theorem setOutLen_cksumOut (v : Word) (s : State) : (setOutLen v s).cksumOut = s.cksumOut := rfl
@[simp] theorem setOutLen_hdr (v : Word) (s : State) : (setOutLen v s).hdr = s.hdr := rfl
@[simp] theorem setOutLen_lop (v : Word) (s : State) : (setOutLen v s).lop = s.lop := rfl
@[simp] theorem setOutLen_mem (v : Word) (s : State) : (setOutLen v s).mem = s.mem := rfl
@[simp] theorem setOutLen_rst (v : Word) (s : State) : (setOutLen v s).rst = s.rst := rfl
@[simp] theorem setOutLen_events (v : Word) (s : State) : (setOutLen v s).events = s.events := rfl
@[simp] theorem setOutLen_reads (v : Word) (s : State) : (setOutLen v s).reads = s.reads := rfl

/-! ### `setMem` -/

@[simp] theorem setMem_ie (m : Memory) (s : State) : (setMem m s).ie = s.ie := rfl
@[simp] theorem setMem_status (m : Memory) (s : State) : (setMem m s).status = s.status := rfl
@[simp] theorem setMem_ops (m : Memory) (s : State) : (setMem m s).ops = s.ops := rfl
@[simp] theorem setMem_outLen (m : Memory) (s : State) : (setMem m s).outLen = s.outLen := rfl
@[simp] theorem setMem_cksumOut (m : Memory) (s : State) : (setMem m s).cksumOut = s.cksumOut := rfl
@[simp] theorem setMem_hdr (m : Memory) (s : State) : (setMem m s).hdr = s.hdr := rfl
@[simp] theorem setMem_lop (m : Memory) (s : State) : (setMem m s).lop = s.lop := rfl
@[simp] theorem setMem_mem (m : Memory) (s : State) : (setMem m s).mem = m := rfl
@[simp] theorem setMem_rst (m : Memory) (s : State) : (setMem m s).rst = s.rst := rfl
@[simp] theorem setMem_events (m : Memory) (s : State) : (setMem m s).events = s.events := rfl
@[simp] theorem setMem_reads (m : Memory) (s : State) : (setMem m s).reads = s.reads := rfl

/-! ### `setEvents` -/

@[simp] theorem setEvents_ie (es : List Event) (s : State) : (setEvents es s).ie = s.ie := rfl
@[simp] theorem setEvents_status (es : List Event) (s : State) : (setEvents es s).status = s.status := rfl
@[simp] theorem setEvents_ops (es : List Event) (s : State) : (setEvents es s).ops = s.ops := rfl
@[simp] theorem setEvents_outLen (es : List Event) (s : State) : (setEvents es s).outLen = s.outLen := rfl
@[simp] theorem setEvents_cksumOut (es : List Event) (s : State) : (setEvents es s).cksumOut = s.cksumOut := rfl
@[simp] theorem setEvents_hdr (es : List Event) (s : State) : (setEvents es s).hdr = s.hdr := rfl
@[simp] theorem setEvents_lop (es : List Event) (s : State) : (setEvents es s).lop = s.lop := rfl
@[simp] theorem setEvents_mem (es : List Event) (s : State) : (setEvents es s).mem = s.mem := rfl
@[simp] theorem setEvents_rst (es : List Event) (s : State) : (setEvents es s).rst = s.rst := rfl
@[simp] theorem setEvents_events (es : List Event) (s : State) : (setEvents es s).events = es := rfl
@[simp] theorem setEvents_reads (es : List Event) (s : State) : (setEvents es s).reads = s.reads := rfl

/-! ### `blockReset` -/

@[simp] theorem blockReset_ie (level : Bool) (s : State) : (blockReset level s).ie = State.reset.ie := rfl
@[simp] theorem blockReset_status (level : Bool) (s : State) : (blockReset level s).status = State.reset.status := rfl
@[simp] theorem blockReset_ops (level : Bool) (s : State) : (blockReset level s).ops = State.reset.ops := rfl
@[simp] theorem blockReset_outLen (level : Bool) (s : State) : (blockReset level s).outLen = State.reset.outLen := rfl
@[simp] theorem blockReset_cksumOut (level : Bool) (s : State) : (blockReset level s).cksumOut = State.reset.cksumOut := rfl
@[simp] theorem blockReset_hdr (level : Bool) (s : State) : (blockReset level s).hdr = State.reset.hdr := rfl
@[simp] theorem blockReset_lop (level : Bool) (s : State) : (blockReset level s).lop = State.reset.lop := rfl
@[simp] theorem blockReset_mem (level : Bool) (s : State) : (blockReset level s).mem = State.reset.mem := rfl
@[simp] theorem blockReset_rst (level : Bool) (s : State) : (blockReset level s).rst = level := rfl
@[simp] theorem blockReset_events (level : Bool) (s : State) : (blockReset level s).events = s.events := rfl
@[simp] theorem blockReset_reads (level : Bool) (s : State) : (blockReset level s).reads = s.reads := rfl

/-! ### `startCommand`: a CMD write changes STATUS and the latched operation only (10_state.md R30, R248) -/

@[simp] theorem startCommand_ie (w : Word) (s : State) : (startCommand w s).ie = s.ie := by
  unfold startCommand; split <;> rfl
@[simp] theorem startCommand_ops (w : Word) (s : State) : (startCommand w s).ops = s.ops := by
  unfold startCommand; split <;> rfl
@[simp] theorem startCommand_outLen (w : Word) (s : State) : (startCommand w s).outLen = s.outLen := by
  unfold startCommand; split <;> rfl
@[simp] theorem startCommand_cksumOut (w : Word) (s : State) : (startCommand w s).cksumOut = s.cksumOut := by
  unfold startCommand; split <;> rfl
@[simp] theorem startCommand_hdr (w : Word) (s : State) : (startCommand w s).hdr = s.hdr := by
  unfold startCommand; split <;> rfl
@[simp] theorem startCommand_mem (w : Word) (s : State) : (startCommand w s).mem = s.mem := by
  unfold startCommand; split <;> rfl
@[simp] theorem startCommand_rst (w : Word) (s : State) : (startCommand w s).rst = s.rst := by
  unfold startCommand; split <;> rfl
@[simp] theorem startCommand_events (w : Word) (s : State) : (startCommand w s).events = s.events := by
  unfold startCommand; split <;> rfl
@[simp] theorem startCommand_reads (w : Word) (s : State) : (startCommand w s).reads = s.reads := by
  unfold startCommand; split <;> rfl

theorem startCommand_legal {w : Word} {i : Instr} (h : decode w = .legal i) (s : State) :
    startCommand w s = { s with status := startedStatus s.status, lop := i } := by
  simp [startCommand, h]

theorem startCommand_illegal {w : Word} {y : IllegalWord} (h : decode w = .illegal y) (s : State) :
    startCommand w s = complete .illegalCmd false s := by
  simp [startCommand, h, complete]

/-! ### `writeReg`: what no register write touches -/

@[simp] theorem writeReg_outLen (s : State) (v : Word) (r : RegName) : (writeReg s v r).outLen = s.outLen := by
  cases r <;> simp [writeReg]
@[simp] theorem writeReg_cksumOut (s : State) (v : Word) (r : RegName) : (writeReg s v r).cksumOut = s.cksumOut := by
  cases r <;> simp [writeReg]
@[simp] theorem writeReg_mem (s : State) (v : Word) (r : RegName) : (writeReg s v r).mem = s.mem := by
  cases r <;> simp [writeReg]
@[simp] theorem writeReg_rst (s : State) (v : Word) (r : RegName) : (writeReg s v r).rst = s.rst := by
  cases r <;> simp [writeReg]
@[simp] theorem writeReg_events (s : State) (v : Word) (r : RegName) : (writeReg s v r).events = s.events := by
  cases r <;> simp [writeReg]
@[simp] theorem writeReg_reads (s : State) (v : Word) (r : RegName) : (writeReg s v r).reads = s.reads := by
  cases r <;> simp [writeReg]

/-- Only a CMD write reaches the latched operation. -/
theorem writeReg_lop {r : RegName} (h : r ≠ .cmd) (s : State) (v : Word) : (writeReg s v r).lop = s.lop := by
  cases r <;> first | rfl | exact absurd rfl h

/-- Only writes of CMD and STATUS reach the flags (R50). -/
theorem writeReg_status {r : RegName} (hc : r ≠ .cmd) (hs : r ≠ .status) (s : State) (v : Word) :
    (writeReg s v r).status = s.status := by
  cases r <;> first | rfl | exact absurd rfl hc | exact absurd rfl hs

/-! ### Reading the state right after reset -/

@[simp] theorem reset_mem : State.reset.mem = [] := rfl
@[simp] theorem reset_rst : State.reset.rst = false := rfl
@[simp] theorem reset_outLen : State.reset.outLen = 0 := rfl
@[simp] theorem reset_status :
    State.reset.status = { busy := false, done := false, valid := false, err := .none } := rfl

end Sys2Proof.Machine
end

