-- ==== Sys2Proof/Laws/Commands.lean ====
section
/-! SUPPORT. Once per command, everything it can do: the ways it answers a next state, and when it faults instead. -/

namespace Sys2Proof.Machine

@[simp] theorem completedStatus_busy (e : ErrCode) (v : Bool) : (completedStatus e v).busy = false := rfl
@[simp] theorem completedStatus_done (e : ErrCode) (v : Bool) : (completedStatus e v).done = true := rfl
@[simp] theorem completedStatus_err (e : ErrCode) (v : Bool) : (completedStatus e v).err = e := rfl
@[simp] theorem completedStatus_valid_none (v : Bool) : (completedStatus .none v).valid = v := by
  cases v <;> rfl

/-- A completion is VALID only without an error (60_exceptions.md R211). -/
theorem completedStatus_valid {e : ErrCode} {v : Bool} (h : (completedStatus e v).valid = true) : e = .none := by
  cases e <;> simp_all [completedStatus]

theorem regionOk_false_iff (a n : Nat) : regionOk params a n = false ↔ ¬ InRange a n := by
  rw [← regionOk_iff, Bool.not_eq_true]

/-- PARSE's three outcomes (40_header_parse.md R120). -/
theorem execParse_cases (s : State) :
    (¬ InRange s.ops.srcAddr.toNat 24 ∧ execParse s = .next (complete .range false s)) ∨
    (InRange s.ops.srcAddr.toNat 24 ∧ HasUnwritten s.mem s.ops.srcAddr.toNat 24 ∧
      execParse s = .fault .uninitRead) ∨
    (InRange s.ops.srcAddr.toNat 24 ∧ ∃ h, h.length = 24 ∧ HoldsBytes s.mem s.ops.srcAddr.toNat h ∧
      execParse s = .next (complete .none false (setHdr (headerOf h) s))) := by
  unfold execParse parseCmd
  cases hr : regionOk params s.ops.srcAddr.toNat 24 with
  | false => exact .inl ⟨(regionOk_false_iff _ _).mp hr, by simp [hr, raise]⟩
  | true =>
    have hin := (regionOk_iff _ _).mp hr
    cases hm : memRead s.mem s.ops.srcAddr.toNat 24 with
    | none => exact .inr (.inl ⟨hin, (memRead_eq_none_iff _ _ _).mp hm, by simp [hr, hm]⟩)
    | some h =>
      obtain ⟨hl, hb⟩ := (memRead_eq_some_iff _ _ _ _).mp hm
      exact .inr (.inr ⟨hin, h, hl, hb, by simp [hr, hm]⟩)

/-- CKSUM's three outcomes (41_integrity.md R143). -/
theorem execCksum_cases (s : State) :
    (¬ InRange s.ops.payAddr.toNat s.ops.payLen.toNat ∧ execCksum s = .next (complete .range false s)) ∨
    (InRange s.ops.payAddr.toNat s.ops.payLen.toNat ∧
      HasUnwritten s.mem s.ops.payAddr.toNat s.ops.payLen.toNat ∧ execCksum s = .fault .uninitRead) ∨
    (InRange s.ops.payAddr.toNat s.ops.payLen.toNat ∧
      ∃ p, p.length = s.ops.payLen.toNat ∧ HoldsBytes s.mem s.ops.payAddr.toNat p ∧
        execCksum s = .next (complete .none false (setCksumOut (cksumReg params p) s))) := by
  unfold execCksum cksumCmd
  cases hr : regionOk params s.ops.payAddr.toNat s.ops.payLen.toNat with
  | false => exact .inl ⟨(regionOk_false_iff _ _).mp hr, by simp [hr, raise]⟩
  | true =>
    have hin := (regionOk_iff _ _).mp hr
    cases hm : memRead s.mem s.ops.payAddr.toNat s.ops.payLen.toNat with
    | none => exact .inr (.inl ⟨hin, (memRead_eq_none_iff _ _ _).mp hm, by simp [hr, hm]⟩)
    | some p =>
      obtain ⟨hl, hb⟩ := (memRead_eq_some_iff _ _ _ _).mp hm
      exact .inr (.inr ⟨hin, p, hl, hb, by simp [hr, hm]⟩)

/-- VERIFY of an absent message or payload (R144). -/
theorem execVerify_absent {m p : Bool} (h : (m && p) = false) (s : State) :
    execVerify m p s = .next (complete .none false s) := by
  simp [execVerify, verifyCmd, h]

/-- VERIFY's three outcomes when message and payload are present (R144). -/
theorem execVerify_cases (s : State) :
    (¬ InRange s.ops.payAddr.toNat s.hdr.dataLen.toNat ∧
      execVerify true true s = .next (complete .range false s)) ∨
    (InRange s.ops.payAddr.toNat s.hdr.dataLen.toNat ∧
      HasUnwritten s.mem s.ops.payAddr.toNat s.hdr.dataLen.toNat ∧
      execVerify true true s = .fault .uninitRead) ∨
    (InRange s.ops.payAddr.toNat s.hdr.dataLen.toNat ∧
      ∃ p, p.length = s.hdr.dataLen.toNat ∧ HoldsBytes s.mem s.ops.payAddr.toNat p ∧
        execVerify true true s =
          .next (complete .none (cksumReg params p == s.hdr.checksum) (setCksumOut (cksumReg params p) s))) := by
  unfold execVerify verifyCmd
  cases hr : regionOk params s.ops.payAddr.toNat s.hdr.dataLen.toNat with
  | false => exact .inl ⟨(regionOk_false_iff _ _).mp hr, by simp [hr, raise]⟩
  | true =>
    have hin := (regionOk_iff _ _).mp hr
    cases hm : memRead s.mem s.ops.payAddr.toNat s.hdr.dataLen.toNat with
    | none => exact .inr (.inl ⟨hin, (memRead_eq_none_iff _ _ _).mp hm, by simp [hr, hm]⟩)
    | some p =>
      obtain ⟨hl, hb⟩ := (memRead_eq_some_iff _ _ _ _).mp hm
      exact .inr (.inr ⟨hin, p, hl, hb, by simp [hr, hm]⟩)

/-- The three regions of FRAME lie in MEM (42_framer.md R171). -/
def FrameInRange (s : State) : Prop :=
  InRange s.ops.cmdAddr.toNat (nameLen s.ops.cmdLen) ∧ InRange s.ops.payAddr.toNat s.ops.payLen.toNat ∧
    InRange s.ops.dstAddr.toNat (frameLen s.ops.payLen)

/-- FRAME's output region meets one of its input regions (R171). -/
def FrameOverlaps (s : State) : Prop :=
  overlap s.ops.dstAddr.toNat (frameLen s.ops.payLen) s.ops.cmdAddr.toNat (nameLen s.ops.cmdLen) = true ∨
    overlap s.ops.dstAddr.toNat (frameLen s.ops.payLen) s.ops.payAddr.toNat s.ops.payLen.toNat = true

/-- FRAME's checks, in their order (R209). -/
theorem frameCheck_cases (s : State) :
    (¬ FrameInRange s ∧ frameCheck params s = some .range) ∨
    (FrameInRange s ∧ FrameOverlaps s ∧ frameCheck params s = some .overlap) ∨
    (FrameInRange s ∧ ¬ FrameOverlaps s ∧ frameCheck params s = none) := by
  unfold FrameInRange FrameOverlaps frameCheck
  simp only [← regionOk_iff]
  cases regionOk params s.ops.cmdAddr.toNat (nameLen s.ops.cmdLen) <;>
    cases regionOk params s.ops.payAddr.toNat s.ops.payLen.toNat <;>
    cases regionOk params s.ops.dstAddr.toNat (frameLen s.ops.payLen) <;>
    cases overlap s.ops.dstAddr.toNat (frameLen s.ops.payLen) s.ops.cmdAddr.toNat (nameLen s.ops.cmdLen) <;>
    cases overlap s.ops.dstAddr.toNat (frameLen s.ops.payLen) s.ops.payAddr.toNat s.ops.payLen.toNat <;>
    simp

/-- What FRAME leaves when it writes its output. -/
def framed (name p : List Byte) (s : State) : State :=
  complete .none false (setCksumOut (le32 (cksum params p)) (setOutLen (BitVec.ofNat 32 (frameLen s.ops.payLen))
    (setMem (memWrite s.mem s.ops.dstAddr.toNat
      (wireMessage s.ops.magic (padName name) s.ops.payLen (cksum params p) p)) s)))

/-- FRAME's outcomes (R171). -/
theorem execFrame_cases (s : State) :
    (¬ FrameInRange s ∧ execFrame s = .next (complete .range false s)) ∨
    (FrameInRange s ∧ FrameOverlaps s ∧ execFrame s = .next (complete .overlap false s)) ∨
    (FrameInRange s ∧ ¬ FrameOverlaps s ∧ execFrame s = .fault .uninitRead ∧
      ((∀ name, ¬ IsName s.mem s.ops.cmdAddr.toNat (nameLen s.ops.cmdLen) name) ∨
        HasUnwritten s.mem s.ops.payAddr.toNat s.ops.payLen.toNat)) ∨
    (FrameInRange s ∧ ¬ FrameOverlaps s ∧ ∃ name p,
      IsName s.mem s.ops.cmdAddr.toNat (nameLen s.ops.cmdLen) name ∧ p.length = s.ops.payLen.toNat ∧
      HoldsBytes s.mem s.ops.payAddr.toNat p ∧ execFrame s = .next (framed name p s)) := by
  rcases frameCheck_cases s with ⟨hr, hc⟩ | ⟨hr, ho, hc⟩ | ⟨hr, ho, hc⟩
  · exact .inl ⟨hr, by simp [execFrame, frameCmd, hc, raise]⟩
  · exact .inr (.inl ⟨hr, ho, by simp [execFrame, frameCmd, hc, raise]⟩)
  · cases hn : nameBytes s.mem s.ops.cmdAddr.toNat (nameLen s.ops.cmdLen) with
    | none =>
      refine .inr (.inr (.inl ⟨hr, ho, by simp [execFrame, frameCmd, hc, cmdField, hn], .inl fun name h => ?_⟩))
      simp [nameBytes_of_isName h] at hn
    | some name =>
      cases hp : memRead s.mem s.ops.payAddr.toNat s.ops.payLen.toNat with
      | none =>
        exact .inr (.inr (.inl ⟨hr, ho, by simp [execFrame, frameCmd, hc, cmdField, hn, hp],
          .inr ((memRead_eq_none_iff _ _ _).mp hp)⟩))
      | some p =>
        obtain ⟨hl, hb⟩ := (memRead_eq_some_iff _ _ _ _).mp hp
        exact .inr (.inr (.inr ⟨hr, ho, name, p, isName_of_nameBytes hn, hl, hb,
          by simp [execFrame, frameCmd, hc, cmdField, hn, hp, framed]⟩))

/-- The wire message has its 24 header bytes and the payload (30_encoding.md R102). -/
theorem length_wireMessage (magic len : Word) {field sum : List Byte} (p : List Byte) (hf : field.length = 12)
    (hs : sum.length = 4) : (wireMessage magic field len sum p).length = 24 + p.length := by
  simp [wireMessage, hf, hs]
  omega

end Sys2Proof.Machine
end

