-- ==== Sys2Proof/WellFormed.lean ====
section
/-! DEFINITION. Well-formed syntax: commands and host program lines. -/

namespace Sys2Proof

/-- Every term of `Instr` is a legal command: the only fields, VERIFY's M and P, are one bit each (30_encoding.md R93, R96). -/
def Instr.wf : Instr → Bool
  | .parse => true
  | .cksum => true
  | .verify _ _ => true
  | .frame => true

/-- A host program line that some port can accept, whatever the state (20_memory.md R63, R65; 30_encoding.md R104). Offsets
past the end of MEM depend on the configuration, and BUSY and reset on the state: the machine checks those. -/
def accessWf (a : Machine.Access) : Bool := a.shapeOk

end Sys2Proof
end

