-- ==== Sys2Proof/Laws/PerInstr.lean ====
section
/-! SUPPORT. Facts about every command as syntax, one lemma per constructor. -/

namespace Sys2Proof.Laws.Encoding

/-- The command is well-formed, its word has an OP from 1 to 4 (30_encoding.md R91), no reserved bit set (R90), and M or P set
only with OP = 3 (R92). -/
def Statement (i : Sys2Proof.Instr) : Prop :=
  i.wf = true ∧ 1 ≤ (Sys2Proof.opField (Sys2Proof.encode i)).toNat ∧
    (Sys2Proof.opField (Sys2Proof.encode i)).toNat ≤ 4 ∧ Sys2Proof.encode i &&& 0xFFFFFCF0#32 = 0 ∧
    (Sys2Proof.mField (Sys2Proof.encode i) = true ∨ Sys2Proof.pField (Sys2Proof.encode i) = true →
      Sys2Proof.opField (Sys2Proof.encode i) = 3)

theorem parse : Statement .parse := by
  refine ⟨rfl, ?_, ?_, ?_, ?_⟩ <;> decide

theorem cksum : Statement .cksum := by
  refine ⟨rfl, ?_, ?_, ?_, ?_⟩ <;> decide

theorem verify (m p : Bool) : Statement (.verify m p) := by
  refine ⟨rfl, ?_, ?_, ?_, ?_⟩ <;> revert m p <;> decide

theorem frame : Statement .frame := by
  refine ⟨rfl, ?_, ?_, ?_, ?_⟩ <;> decide

end Sys2Proof.Laws.Encoding
end

