-- ==== Sys2Proof/Laws/Ports.lean ====
section
/-! SUPPORT. The host's side, once: when a port accepts an access and everything an accepted one can do. -/

namespace Sys2Proof.Machine

/-- The register map finds every register at its own offset (10_state.md R22). -/
@[simp] theorem ofOffset_offset (r : RegName) : RegName.ofOffset r.offset = some r := by
  cases r <;> rfl

/-- A register the map finds stands at that offset (R22). -/
theorem offset_of_ofOffset {off : Nat} {r : RegName} (h : RegName.ofOffset off = some r) : r.offset = off := by
  have := List.find?_some h
  simpa using this

/-- The register map's offsets are all different (R22). -/
theorem offset_injective {r q : RegName} (h : r.offset = q.offset) : r = q := by
  have h1 := ofOffset_offset r
  rw [h, ofOffset_offset] at h1
  exact (Option.some.inj h1).symm

/-- An accepted access, in full (60_exceptions.md R207). -/
theorem accepts_iff (a : Access) (s : State) :
    accepts params a s = true ↔
      s.rst = false ∧ a.shapeOk = true ∧ insideSpace params a = true ∧
        (s.status.busy = false ∨ allowedWhileBusy a = true) := by
  simp [accepts, and_assoc]

/-- A rejected access is a bus error (R208). -/
theorem hostAccess_rejected {c : Params} {a : Access} {s : State} (h : accepts c a s = false) :
    hostAccess c a s = .fault .busError := by
  simp [hostAccess, h]

/-- An accepted register access runs on its register (R22). -/
theorem hostAccess_reg {c : Params} {r : RegName} {op : BusOp} {s : State}
    (h : accepts c ⟨.reg, .w32, r.offset, op⟩ s = true) :
    hostAccess c ⟨.reg, .w32, r.offset, op⟩ s = regAccess r op s := by
  simp [hostAccess, h]

/-- An accepted buffer access runs on MEM (20_memory.md R62). -/
theorem hostAccess_mem {c : Params} {w : Width} {off : Nat} {op : BusOp} {s : State}
    (h : accepts c ⟨.mem, w, off, op⟩ s = true) :
    hostAccess c ⟨.mem, w, off, op⟩ s = bufAccess off w.bytes op s := by
  simp [hostAccess, h]

/-- Every register offset is a multiple of 4 (R65). -/
theorem offset_mod (r : RegName) : r.offset % 4 = 0 := by
  cases r <;> rfl

/-- Out of reset and idle, every 32-bit access to a register of the map is accepted (R22). -/
theorem accepts_reg_idle {s : State} (hr : s.rst = false) (hb : s.status.busy = false) (r : RegName) (op : BusOp) :
    accepts params ⟨.reg, .w32, r.offset, op⟩ s = true := by
  simp [accepts, hr, hb, Access.shapeOk, insideSpace, offset_mod]

/-- Out of reset and idle, every aligned access inside MEM is accepted (R63). -/
theorem accepts_mem_idle {s : State} (hr : s.rst = false) (hb : s.status.busy = false) {w : Width} {a : Nat}
    (op : BusOp) (ha : a % w.bytes = 0) (hm : a + w.bytes ≤ 2 ^ params.memAw) :
    accepts params ⟨.mem, w, a, op⟩ s = true := by
  simp [accepts, hr, hb, Access.shapeOk, insideSpace, ha, hm, Params.memBytes_eq]

/-- While BUSY the buffer port accepts nothing (10_state.md R45). -/
theorem accepts_mem_busy {s : State} (hb : s.status.busy = true) (w : Width) (a : Nat) (op : BusOp) :
    accepts params ⟨.mem, w, a, op⟩ s = false := by
  simp [accepts, hb, allowedWhileBusy]

/-- Everything a host access that succeeds can do. -/
theorem hostAccess_next {a : Access} {s t : State} (h : hostAccess params a s = .next t) :
    accepts params a s = true ∧
      ((∃ r, a.port = .reg ∧ RegName.ofOffset a.offset = some r ∧
          ((a.op = .read ∧ t = giveHost (readReg s r) s) ∨ (∃ v, a.op = .write v ∧ t = writeReg s v r))) ∨
        (a.port = .mem ∧
          ((a.op = .read ∧ ∃ bytes, bytes.length = a.width.bytes ∧ HoldsBytes s.mem a.offset bytes ∧
              t = giveHost (le32 bytes) s) ∨
            (∃ v, a.op = .write v ∧ t = setMem (memWrite s.mem a.offset (leBytes a.width.bytes v)) s)))) := by
  obtain ⟨port, width, off, op⟩ := a
  cases ha : accepts params ⟨port, width, off, op⟩ s with
  | false => simp [hostAccess, ha] at h
  | true =>
    refine ⟨rfl, ?_⟩
    simp only [hostAccess, ha, if_true] at h
    cases port with
    | reg =>
      refine .inl ?_
      cases hr : RegName.ofOffset off with
      | none => simp [hr] at h
      | some r =>
        simp only [hr, regAccess] at h
        cases op with
        | read => exact ⟨r, rfl, rfl, .inl ⟨rfl, (Host.Outcome.next.inj h).symm⟩⟩
        | write v => exact ⟨r, rfl, rfl, .inr ⟨v, rfl, (Host.Outcome.next.inj h).symm⟩⟩
    | mem =>
      refine .inr ⟨rfl, ?_⟩
      cases op with
      | read =>
        simp only [bufAccess] at h
        split at h
        · exact absurd h (by simp)
        · rename_i bytes hm
          obtain ⟨hl, hb⟩ := (memRead_eq_some_iff _ _ _ _).mp hm
          exact .inl ⟨rfl, bytes, hl, hb, (Host.Outcome.next.inj h).symm⟩
      | write v => exact .inr ⟨v, rfl, (Host.Outcome.next.inj h).symm⟩

/-- Whether an access is accepted does not depend on what is due to happen. -/
@[simp] theorem accepts_setEvents (c : Params) (a : Access) (es : List Event) (s : State) :
    accepts c a (setEvents es s) = accepts c a s := rfl

end Sys2Proof.Machine
end

