-- ==== Sys2Proof/Laws/Step.lean ====
section
/-! SUPPORT. The step, once: everything it can do, by the event that is next. -/

namespace Sys2Proof.Machine

/-- No step leaves the state as it is. -/
theorem stepsFrom_zero (s : State) : stepsFrom 0 s = .next s := rfl

/-- One more step of any machine of the host's interface. -/
theorem coreRun_succ (M : Host.Core) (n : Nat) (s : M.State) :
    M.run (n + 1) s =
      match M.step s with
      | .next t => M.run n t
      | .fault r => .fault r
      | .refused r => .refused r := rfl

theorem coreRun_next (M : Host.Core) {n : Nat} {s t : M.State} (h : M.step s = .next t) :
    M.run (n + 1) s = M.run n t := by
  rw [coreRun_succ, h]

theorem coreRun_one (M : Host.Core) (s : M.State) : M.run 1 s = M.step s := by
  rw [coreRun_succ]
  cases M.step s <;> rfl

/-- A run goes on from the next state of its first step. -/
theorem stepsFrom_next {n : Nat} {s t : State} (h : step s = .next t) : stepsFrom (n + 1) s = stepsFrom n t :=
  coreRun_next Sys2Proof.core h

/-- A run of one step is that step. -/
theorem stepsFrom_one (s : State) : stepsFrom 1 s = step s := coreRun_one Sys2Proof.core s

/-- What the engine does in its turn (60_exceptions.md R211). -/
theorem engineTurn_busy {s : State} (hb : s.status.busy = true) (hr : s.rst = false)
    (run : Instr → State → Host.Outcome State Fault Refusal) : engineTurn run s = run s.lop s := by
  simp [engineTurn, hb, hr]

/-- An engine that is idle, or in reset, has no step (R223, R240). -/
theorem engineTurn_idle {s : State} (h : s.status.busy = false ∨ s.rst = true)
    (run : Instr → State → Host.Outcome State Fault Refusal) : engineTurn run s = .next s := by
  rcases h with h | h <;> simp [engineTurn, h]

/-- A step with no event due is the engine's turn (R254). -/
theorem step_nil {s : State} (h : s.events = []) : step s = engineTurn exec s := by
  simp [step, agentStep, h]

/-- A step with an event due takes it (00_scope.md R7). -/
theorem step_cons {s : State} {e : Event} {es : List Event} (h : s.events = e :: es) :
    step s = runEvent params exec e (setEvents es s) := by
  simp [step, agentStep, h]

/-- A step at a host access. -/
theorem step_access {s : State} {a : Access} {es : List Event} (h : s.events = .access a :: es) :
    step s = hostAccess params a (setEvents es s) := step_cons h

/-- A register write that is accepted. -/
theorem step_wr {s : State} {r : RegName} {v : Word} {es : List Event} (h : s.events = wr r v :: es)
    (ha : accepts params ⟨.reg, .w32, r.offset, .write v⟩ s = true) :
    step s = .next (writeReg (setEvents es s) v r) := by
  rw [step_access h, hostAccess_reg (by simpa using ha)]
  rfl

/-- A register read that is accepted. -/
theorem step_rd {s : State} {r : RegName} {es : List Event} (h : s.events = rd r :: es)
    (ha : accepts params ⟨.reg, .w32, r.offset, .read⟩ s = true) :
    step s = .next (giveHost (readReg (setEvents es s) r) (setEvents es s)) := by
  rw [step_access h, hostAccess_reg (by simpa using ha)]
  rfl

/-- An address in a window is the window's base and the offset in it. -/
theorem windowOffset_some {base size addr off : Nat} (h : windowOffset base size addr = some off) :
    addr = base + off := by
  unfold windowOffset at h
  split at h
  · have := Option.some.inj h
    omega
  · exact absurd h (by simp)

/-- Everything a platform access that succeeds can do: it is the access its window makes it (20_memory.md R61). -/
theorem platformAccess_next {addr : Nat} {w : Width} {op : BusOp} {s t : State}
    (h : platformAccess params addr w op s = .next t) :
    ∃ a : Access, IsAccess (.platform addr w op) a ∧ hostAccess params a s = .next t := by
  unfold platformAccess at h
  split at h
  · rename_i off hr _
    exact ⟨⟨.reg, w, off, op⟩, .inr (by rw [windowOffset_some hr]), h⟩
  · rename_i off _ hm
    exact ⟨⟨.mem, w, off, op⟩, .inr (by rw [windowOffset_some hm]), h⟩
  · exact absurd h (by simp)
  · exact absurd h (by simp)

/-- Everything a step that answers a next state can have done. -/
theorem step_next {s t : State} (h : step s = .next t) :
    (∃ es, (s.events = [] ∧ es = [] ∨ s.events = .engine :: es) ∧
      ((s.status.busy = true ∧ s.rst = false ∧ exec s.lop (setEvents es s) = .next t) ∨
        ((s.status.busy = false ∨ s.rst = true) ∧ t = setEvents es s))) ∨
    (∃ e es a, s.events = e :: es ∧ IsAccess e a ∧ hostAccess params a (setEvents es s) = .next t) ∨
    (∃ es, s.events = .assertRst :: es ∧ t = blockReset true (setEvents es s)) ∨
    (∃ es, s.events = .releaseRst :: es ∧
      (s.rst = true ∧ t = blockReset false (setEvents es s) ∨ s.rst = false ∧ t = setEvents es s)) := by
  have turn : ∀ u : State, engineTurn exec u = .next t →
      (u.status.busy = true ∧ u.rst = false ∧ exec u.lop u = .next t) ∨
        ((u.status.busy = false ∨ u.rst = true) ∧ t = u) := by
    intro u hu
    unfold engineTurn at hu
    split at hu
    · rename_i hc
      simp only [Bool.and_eq_true, Bool.not_eq_true'] at hc
      exact .inl ⟨hc.1, hc.2, hu⟩
    · rename_i hc
      refine .inr ⟨?_, (Host.Outcome.next.inj hu).symm⟩
      cases hb : u.status.busy <;> cases hr : u.rst <;> simp_all
  cases he : s.events with
  | nil =>
    rw [step_nil he] at h
    have hs : setEvents [] s = s := by
      unfold setEvents
      rw [← he]
    refine .inl ⟨[], .inl ⟨rfl, rfl⟩, ?_⟩
    rw [hs]
    exact turn s h
  | cons e es =>
    rw [step_cons he] at h
    cases e with
    | engine => exact .inl ⟨es, .inr rfl, turn _ h⟩
    | access a => exact .inr (.inl ⟨_, es, a, rfl, .inl rfl, h⟩)
    | platform addr w op =>
      simp only [runEvent] at h
      obtain ⟨a, hea, ha⟩ := platformAccess_next h
      exact .inr (.inl ⟨_, es, a, rfl, hea, ha⟩)
    | assertRst =>
      exact .inr (.inr (.inl ⟨es, rfl, (Host.Outcome.next.inj h).symm⟩))
    | releaseRst =>
      refine .inr (.inr (.inr ⟨es, rfl, ?_⟩))
      have ht : releaseReset (setEvents es s) = t := Host.Outcome.next.inj h
      unfold releaseReset at ht
      split at ht
      · rename_i hr
        exact .inl ⟨by simpa using hr, ht.symm⟩
      · rename_i hr
        exact .inr ⟨by simpa using hr, ht.symm⟩

/-! ### What one step of each agent leaves of memory's canonical form -/

/-- Everything a command that completes can have done, the ways it ends (60_exceptions.md R211, R200). -/
theorem exec_next_cases {i : Instr} {s t : State} (h : exec i s = .next t) :
    (∃ e, e ≠ ErrCode.none ∧ e ≠ .illegalCmd ∧ (e = .overlap → i = .frame) ∧ t = complete e false s) ∨
    (i = .parse ∧ ∃ b, t = complete .none false (setHdr b s)) ∨
    (i = .cksum ∧ ∃ b, t = complete .none false (setCksumOut b s)) ∨
    (∃ m p, i = .verify m p ∧ t = complete .none false s) ∨
    (i = .verify true true ∧ ∃ v b, t = complete .none v (setCksumOut b s)) ∨
    (i = .frame ∧ ∃ name p, InRange s.ops.dstAddr.toNat (frameLen s.ops.payLen) ∧ (padName name).length = 12 ∧
      p.length = s.ops.payLen.toNat ∧ t = framed name p s) := by
  rcases i with _ | _ | ⟨m, p⟩ | _
  · rcases execParse_cases s with ⟨-, he⟩ | ⟨-, -, he⟩ | ⟨-, b, -, -, he⟩ <;> rw [exec, he] at h <;> cases h
    · exact .inl ⟨_, by simp, by simp, by simp, rfl⟩
    · exact .inr (.inl ⟨rfl, _, rfl⟩)
  · rcases execCksum_cases s with ⟨-, he⟩ | ⟨-, -, he⟩ | ⟨-, b, -, -, he⟩ <;> rw [exec, he] at h <;> cases h
    · exact .inl ⟨_, by simp, by simp, by simp, rfl⟩
    · exact .inr (.inr (.inl ⟨rfl, _, rfl⟩))
  · cases hmp : m && p with
    | false =>
      rw [exec, execVerify_absent hmp] at h
      cases h
      exact .inr (.inr (.inr (.inl ⟨_, _, rfl, rfl⟩)))
    | true =>
      obtain ⟨rfl, rfl⟩ : m = true ∧ p = true := by simpa using hmp
      rcases execVerify_cases s with ⟨-, he⟩ | ⟨-, -, he⟩ | ⟨-, b, -, -, he⟩ <;> rw [exec, he] at h <;> cases h
      · exact .inl ⟨_, by simp, by simp, by simp, rfl⟩
      · exact .inr (.inr (.inr (.inr (.inl ⟨rfl, _, _, rfl⟩))))
  · rcases execFrame_cases s with ⟨-, he⟩ | ⟨-, -, he⟩ | ⟨-, -, he, -⟩ | ⟨hr, -, n, b, hn, hl, -, he⟩ <;>
      rw [exec, he] at h <;> cases h
    · exact .inl ⟨_, by simp, by simp, by simp, rfl⟩
    · exact .inl ⟨_, by simp, by simp, by simp, rfl⟩
    · exact .inr (.inr (.inr (.inr (.inr ⟨rfl, n, b, hr.2.2,
        length_padName (Nat.le_trans hn.2.2.1 (nameLen_le _)), hl, rfl⟩))))

/-- Every command keeps memory in canonical form (20_memory.md R60). -/
theorem exec_keeps_memWf {i : Instr} {s t : State} (hm : memWf params.memBytes s.mem = true)
    (h : exec i s = .next t) : memWf params.memBytes t.mem = true := by
  rcases exec_next_cases h with ⟨e, -, -, -, rfl⟩ | ⟨-, b, rfl⟩ | ⟨-, b, rfl⟩ | ⟨m, p, -, rfl⟩ | ⟨-, v, b, rfl⟩ |
    ⟨-, name, p, hd, hn, hl, rfl⟩
  case inr.inr.inr.inr.inr =>
    have hlen : (wireMessage s.ops.magic (padName name) s.ops.payLen (cksum params p) p).length =
        frameLen s.ops.payLen := by
      rw [length_wireMessage _ _ p hn (length_cksum _ _), hl]
      rfl
    have hfit : s.ops.dstAddr.toNat + frameLen s.ops.payLen ≤ params.memBytes := by
      rw [Params.memBytes_eq]
      rcases hd with h0 | h0
      · exact absurd h0 (by unfold frameLen; omega)
      · exact h0
    simpa [framed] using memWf_memWrite hm (hlen ▸ hfit)
  all_goals simpa using hm

/-- Every host access keeps memory in canonical form (R60, R63). -/
theorem hostAccess_keeps_memWf {a : Access} {s t : State} (hm : memWf params.memBytes s.mem = true)
    (h : hostAccess params a s = .next t) : memWf params.memBytes t.mem = true := by
  obtain ⟨ha, hc⟩ := hostAccess_next h
  rcases hc with ⟨r, -, -, ⟨-, rfl⟩ | ⟨v, -, rfl⟩⟩ | ⟨hp, ⟨-, b, -, -, rfl⟩ | ⟨v, -, rfl⟩⟩
  · simpa using hm
  · simpa using hm
  · simpa using hm
  · have hin := ((accepts_iff a s).mp ha).2.2.1
    simp only [insideSpace, hp, decide_eq_true_eq] at hin
    simpa using memWf_memWrite hm (by simpa using hin)

/-- Reset leaves memory in canonical form (R73). -/
theorem blockReset_memWf (level : Bool) (s : State) : memWf params.memBytes (blockReset level s).mem = true := rfl

end Sys2Proof.Machine
end

