-- ==== Sys2Proof/Machine/Sha256.lean ====
section
/-! DEFINITION. The default `HASH`, SHA-256 (00_scope.md R6, 41_integrity.md R141): PRESUMED, written from general knowledge of FIPS 180-4,
which the spec names and does not give (log entry 13). The machine does not use it: it runs with the parameter of `Config.params`. -/

namespace Sys2Proof.Machine

/-- The eight words of a hash state, or of the working variables a to h. -/
structure ShaWords where
  a : Word
  b : Word
  c : Word
  d : Word
  e : Word
  f : Word
  g : Word
  h : Word
  deriving DecidableEq, Repr

/-- The greatest number whose `k`-th power is at most `n`, above `acc` by less than `2 ^ bits`, one bit at a time. -/
def natRoot (k n : Nat) : Nat → Nat → Nat
  | 0, acc => acc
  | bit + 1, acc => natRoot k n bit (if (acc + 2 ^ bit) ^ k ≤ n then acc + 2 ^ bit else acc)

/-- The first 32 bits of the fractional part of the `k`-th root of a number below `8 ^ k`. -/
def rootFraction (k p : Nat) : Word := BitVec.ofNat 32 (natRoot k (p * 2 ^ (32 * k)) 35 0)

/-- The first 64 primes. -/
def shaPrimes : List Nat :=
  [2, 3, 5, 7, 11, 13, 17, 19, 23, 29, 31, 37, 41, 43, 47, 53] ++
  [59, 61, 67, 71, 73, 79, 83, 89, 97, 101, 103, 107, 109, 113, 127, 131] ++
  [137, 139, 149, 151, 157, 163, 167, 173, 179, 181, 191, 193, 197, 199, 211, 223] ++
  [227, 229, 233, 239, 241, 251, 257, 263, 269, 271, 277, 281, 283, 293, 307, 311]

/-- The initial hash value, from the square roots of the first eight primes. -/
def shaInit : ShaWords where
  a := rootFraction 2 2
  b := rootFraction 2 3
  c := rootFraction 2 5
  d := rootFraction 2 7
  e := rootFraction 2 11
  f := rootFraction 2 13
  g := rootFraction 2 17
  h := rootFraction 2 19

/-- The 64 round constants, from the cube roots of the first 64 primes. -/
def shaRoundConstants : List Word := shaPrimes.map (rootFraction 3)

/-- The exclusive or of a word rotated right by two amounts and of a third word. -/
def rotMix (r1 r2 : Nat) (x y : Word) : Word := x.rotateRight r1 ^^^ x.rotateRight r2 ^^^ y

def shaBigSigma0 (x : Word) : Word := rotMix 2 13 x (x.rotateRight 22)

def shaBigSigma1 (x : Word) : Word := rotMix 6 11 x (x.rotateRight 25)

def shaSmallSigma0 (x : Word) : Word := rotMix 7 18 x (x >>> 3)

def shaSmallSigma1 (x : Word) : Word := rotMix 17 19 x (x >>> 10)

def shaCh (x y z : Word) : Word := (x &&& y) ^^^ (~~~x &&& z)

def shaMaj (x y z : Word) : Word := (x &&& y) ^^^ (x &&& z) ^^^ (y &&& z)

/-- One round, with its constant `k` and message word `w`. -/
def shaRound (v : ShaWords) (k w : Word) : ShaWords :=
  let t1 := v.h + shaBigSigma1 v.e + shaCh v.e v.f v.g + k + w
  let t2 := shaBigSigma0 v.a + shaMaj v.a v.b v.c
  ⟨t1 + t2, v.a, v.b, v.c, v.d + t1, v.e, v.f, v.g⟩

/-- The message word that follows a window of the last sixteen. -/
def shaNextWord (win : List Word) : Word :=
  shaSmallSigma1 (win.getD 14 0) + win.getD 9 0 + shaSmallSigma0 (win.getD 1 0) + win.getD 0 0

/-- The rounds for the constants that remain, over a sliding window of sixteen message words. -/
def shaRounds : List Word → List Word → ShaWords → ShaWords
  | [], _, v => v
  | k :: ks, win, v => shaRounds ks (win.tail ++ [shaNextWord win]) (shaRound v k (win.getD 0 0))

/-- One block of sixteen words taken into the hash state. -/
def shaBlock (block : List Word) (v : ShaWords) : ShaWords :=
  let r := shaRounds shaRoundConstants block v
  ⟨v.a + r.a, v.b + r.b, v.c + r.c, v.d + r.d, v.e + r.e, v.f + r.f, v.g + r.g, v.h + r.h⟩

/-- Bytes as words, most significant byte first. -/
def beWords : List Byte → List Word
  | b0 :: b1 :: b2 :: b3 :: rest => (b0 ++ b1 ++ b2 ++ b3) :: beWords rest
  | _ => []

/-- The blocks that remain, `n` of them. -/
def shaBlocks : Nat → List Word → ShaWords → ShaWords
  | 0, _, v => v
  | n + 1, ws, v => shaBlocks n (ws.drop 16) (shaBlock (ws.take 16) v)

/-- `n` as eight bytes, most significant first. -/
def beBytes64 (n : Nat) : List Byte :=
  (List.range 8).map (fun i => BitVec.ofNat 8 (n / 256 ^ (7 - i)))

/-- The padded message: a 1 bit, zeros to 56 bytes past a whole number of blocks, the length in bits. -/
def shaPad (s : List Byte) : List Byte :=
  s ++ [0x80#8] ++ List.replicate ((119 - s.length % 64) % 64) 0 ++ beBytes64 (8 * s.length)

/-- Byte `i` of a word, most significant first. -/
def beByte (w : Word) (i : Nat) : Byte := (w >>> (8 * (3 - i))).setWidth 8

/-- The digest: the eight words, each most significant byte first (R142). -/
def shaDigest (v : ShaWords) : Digest :=
  #v[beByte v.a 0, beByte v.a 1, beByte v.a 2, beByte v.a 3, beByte v.b 0, beByte v.b 1, beByte v.b 2, beByte v.b 3,
    beByte v.c 0, beByte v.c 1, beByte v.c 2, beByte v.c 3, beByte v.d 0, beByte v.d 1, beByte v.d 2, beByte v.d 3,
    beByte v.e 0, beByte v.e 1, beByte v.e 2, beByte v.e 3, beByte v.f 0, beByte v.f 1, beByte v.f 2, beByte v.f 3,
    beByte v.g 0, beByte v.g 1, beByte v.g 2, beByte v.g 3, beByte v.h 0, beByte v.h 1, beByte v.h 2, beByte v.h 3]

/-- SHA-256. -/
def sha256 (s : List Byte) : Digest :=
  let m := shaPad s
  shaDigest (shaBlocks (m.length / 64) (beWords m) shaInit)

/-- The parameters of the spec's test vectors (95_test_vectors.md): `MEM_AW = 12` and `HASH` its default. The window bases are
not the vectors' concern. -/
def vectorParams : Params where
  memAwAbove := 7
  regPage := 0
  memPage := 1
  hash := sha256

end Sys2Proof.Machine
end

