-- ==== Sys2Proof/Tests/Slice0.lean ====
section
/-! SUPPORT. Tests from 95_test_vectors.md, each about one step or one decoding, and for every statement with hypotheses a
witness that meets them. -/

open Sys2Proof Sys2Proof.Machine

namespace Sys2Proof.Tests

/-! ### Decoding: words written out from 30_encoding.md R90 to R93, bits 31 to 0 -/

theorem test_decode_parse :
    decodeTableWord 32 0b0000_0000_0000_0000_0000_0000_0000_0001 = some .parse := by decide

theorem test_decode_cksum :
    decodeTableWord 32 0b0000_0000_0000_0000_0000_0000_0000_0010 = some .cksum := by decide

/-- M is bit 8 and P is bit 9: the two are not swapped. -/
theorem test_decode_verify :
    decodeTableWord 32 0b0000_0000_0000_0000_0000_0001_0000_0011 = some (.verify true false) ∧
    decodeTableWord 32 0b0000_0000_0000_0000_0000_0010_0000_0011 = some (.verify false true) := by decide

theorem test_decode_frame :
    decodeTableWord 32 0b0000_0000_0000_0000_0000_0000_0000_0100 = some .frame := by decide

/-- The illegal rows of 95_test_vectors.md 2.3. -/
theorem test_decode_illegal :
    [0x00000000, 0x00000005, 0x0000000F, 0x00000101, 0x00000204, 0x00000013, 0x00000403, 0x80000002].map
      (decodeTableWord 32) = List.replicate 8 none := by decide

/-! ### Well-formedness: what every port refuses (95_test_vectors.md S-12, S-13, S-14; 20_memory.md R65) -/

theorem test_wf_refuses_narrow_register_access : accessWf ⟨.reg, .w8, 0x008, .read⟩ = false := by decide

theorem test_wf_refuses_misaligned_register_access : accessWf ⟨.reg, .w32, 0x00A, .read⟩ = false := by decide

theorem test_wf_refuses_unmapped_register : accessWf ⟨.reg, .w32, 0x034, .read⟩ = false := by decide

theorem test_wf_refuses_misaligned_buffer_access : accessWf ⟨.mem, .w32, 0x002, .read⟩ = false := by decide

theorem test_wf_accepts : Instr.wf (.verify true false) = true ∧ accessWf ⟨.mem, .w16, 0x002, .read⟩ = true := by decide

/-! ### Helpers -/

/-- The next state of an outcome, if it is one. -/
def nextOf : Host.Outcome State Fault Refusal → Option State
  | .next s => some s
  | .fault _ => none
  | .refused _ => none

/-- The fault of an outcome, if it is one. -/
def faultOf : Host.Outcome State Fault Refusal → Option Fault
  | .next _ => none
  | .fault f => some f
  | .refused _ => none

theorem eq_next {o : Host.Outcome State Fault Refusal} (h : (nextOf o).isSome = true) :
    ∃ t, o = .next t ∧ nextOf o = some t := by
  cases o <;> simp_all [nextOf]

theorem eq_fault {o : Host.Outcome State Fault Refusal} {f : Fault} (h : faultOf o = some f) : o = .fault f := by
  cases o <;> simp_all [faultOf]

/-- ASCII text as bytes (00_scope.md R10). -/
def ascii (text : String) : List Byte := text.toList.map (fun ch => BitVec.ofNat 8 ch.toNat)

/-- The reset state with bytes written at an offset. -/
def withBytes (s : State) (a : Nat) (bytes : List Byte) : State := { s with mem := memWrite s.mem a bytes }

/-- The reset state with events pending. -/
def withEvents (es : List Event) : State := { State.reset with events := es }

/-! ### PARSE (95_test_vectors.md P-2, P-6) -/

/-- The 29 bytes of message F-5. -/
def verackMessage : List Byte :=
  [0xf9, 0xbe, 0xb4, 0xd9, 0x76, 0x65, 0x72, 0x61, 0x63, 0x6b, 0x76, 0x65, 0x72, 0x61, 0x63, 0x6b] ++
  [0x05, 0x00, 0x00, 0x00, 0x95, 0x95, 0xc9, 0xdf] ++ ascii "hello"

def parseState (src : Word) : State :=
  withBytes { State.reset with ops := { State.reset.ops with srcAddr := src } } 0x200 verackMessage

theorem test_parse_header_fields :
    (nextOf (parseCmd vectorParams (parseState 0x200))).map (fun t => (t.hdr, statusWord t.status)) =
      some (⟨0xD9B4BEF9, 0x61726576, 0x65766B63, 0x6B636172, 5, 0xDFC99595⟩, 0x00000002) := by decide +kernel

theorem test_parse_range_does_not_wrap :
    (nextOf (parseCmd vectorParams (parseState 0xFFFFFFFF))).map (fun t => (t.hdr, statusWord t.status)) =
      some (State.reset.hdr, 0x00000022) := by decide +kernel

/-! ### CKSUM (95_test_vectors.md K-2, K-3; HASH = SHA-256) -/

def cksumState (a n : Word) : State :=
  withBytes { State.reset with ops := { State.reset.ops with payAddr := a, payLen := n } } 0x218 (ascii "hello")

theorem test_cksum_hello :
    (nextOf (cksumCmd vectorParams (cksumState 0x218 5))).map (fun t => (t.cksumOut, statusWord t.status)) =
      some (0xDFC99595, 0x00000002) := by decide +kernel

theorem test_cksum_empty_anywhere :
    (nextOf (cksumCmd vectorParams (cksumState 0xFFFFFFFF 0))).map (fun t => (t.cksumOut, statusWord t.status)) =
      some (0xE2E0F65D, 0x00000002) := by decide +kernel

/-! ### VERIFY (95_test_vectors.md V-1, V-2) -/

def verifyState (payload : String) : State :=
  withBytes
    { State.reset with
      ops := { State.reset.ops with payAddr := 0x218, payLen := 1000 }
      hdr := { State.reset.hdr with dataLen := 5, checksum := 0xDFC99595 } }
    0x218 (ascii payload)

theorem test_verify_match :
    (nextOf (verifyCmd vectorParams true true (verifyState "hello"))).map
      (fun t => (t.cksumOut, statusWord t.status)) = some (0xDFC99595, 0x00000006) := by decide +kernel

theorem test_verify_mismatch :
    (nextOf (verifyCmd vectorParams true true (verifyState "hellp"))).map
      (fun t => (t.cksumOut, statusWord t.status)) = some (0xA2F58B1C, 0x00000002) := by decide +kernel

/-! ### FRAME (95_test_vectors.md F-2, F-3) -/

def frameState (name : List Byte) (len : Word) (payload : List Byte) (dst : Word) : State :=
  withBytes
    (withBytes
      { State.reset with
        ops := {
          State.reset.ops with
          cmdAddr := 0x300, cmdLen := len, payAddr := 0x310, payLen := BitVec.ofNat 32 payload.length,
          dstAddr := dst, magic := 0x04030201 } }
      0x300 name)
    0x310 payload

/-- What FRAME leaves: the message, OUT_LEN, CKSUM_OUT and STATUS. -/
def frameView (t : State) : Option (List Byte) × Word × Word × Word :=
  (memRead t.mem t.ops.dstAddr.toNat t.outLen.toNat, t.outLen, t.cksumOut, statusWord t.status)

theorem test_frame_truncates_name :
    (nextOf (frameCmd vectorParams (frameState (ascii "abcdefghijklmnop") 16 (ascii "hi") 0x400))).map frameView =
      some (some ([0x01, 0x02, 0x03, 0x04, 0x61, 0x62, 0x63, 0x64, 0x65, 0x66, 0x67, 0x68, 0x69, 0x6a, 0x6b, 0x6c] ++
        [0x02, 0x00, 0x00, 0x00, 0xbc, 0x4f, 0x48, 0xd7, 0x68, 0x69]), 26, 0xD7484FBC, 0x00000002) := by
  decide +kernel

theorem test_frame_name_ends_at_zero :
    (nextOf (frameCmd vectorParams (frameState [0x61, 0x62, 0x00, 0x63, 0x64] 5 [1, 2, 3, 4, 5] 0x400))).map frameView =
      some (some ([0x01, 0x02, 0x03, 0x04, 0x61, 0x62, 0x00, 0x00, 0x00, 0x00, 0x00, 0x00, 0x00, 0x00, 0x00, 0x00] ++
        [0x05, 0x00, 0x00, 0x00, 0xa2, 0x6b, 0xaf, 0x5a, 0x01, 0x02, 0x03, 0x04, 0x05]), 29, 0x5AAF6BA2,
        0x00000002) := by
  decide +kernel

/-! ### The ports (95_test_vectors.md S-4, S-9, S-15, S-16) -/

/-- One step of a block with the vectors' parameters. -/
def vectorStep (s : State) : Host.Outcome State Fault Refusal := agentStep vectorParams exec s

/-- S-3's start state, with an event next. -/
def doneState (e : Event) : State :=
  { State.reset with ie := true, status := { busy := false, done := true, valid := true, err := .none }, events := [e] }

theorem test_ack_keeps_valid :
    (nextOf (vectorStep (doneState (wr .status 0x2)))).map (fun t => (statusWord t.status, irq t)) =
      some (0x00000004, false) := by decide

theorem test_cmd_while_busy_is_bus_error :
    faultOf (vectorStep { withEvents [wr .cmd 1] with status := startedStatus State.reset.status }) =
      some .busError := by decide

theorem test_read_of_last_word :
    (nextOf (vectorStep (withBytes (withEvents [mr .w32 0xFFC]) 0xFFC (ascii "ping")))).map (·.reads) =
      some [0x676E6970] := by decide

theorem test_read_past_mem_is_bus_error : faultOf (vectorStep (withEvents [mr .w8 0x1000])) = some .busError := by
  decide

/-! ### Witnesses: states and operands that meet the hypotheses of each statement -/

/-- The end of MEM, whatever MEM_AW is. -/
def top : Nat := 2 ^ params.memAw

theorem top_ge : 32 ≤ top := by
  unfold top
  rw [← Params.memBytes_eq]
  exact Params.memBytes_ge _

theorem top_le : top ≤ 2 ^ 31 := by
  unfold top
  rw [← Params.memBytes_eq]
  exact Params.memBytes_le _

theorem inRange_of_le {a n : Nat} (h : a + n ≤ top) : InRange a n := .inr h

theorem inRange_low {a n : Nat} (h : a + n ≤ 32) : InRange a n := inRange_of_le (h.trans top_ge)

theorem not_inRange {a n : Nat} (hn : n ≠ 0) (h : top < a + n) : ¬ InRange a n := by
  rintro (h0 | h0)
  · exact hn h0
  · exact absurd h0 (Nat.not_le.mpr h)

/-- An address just below the end of MEM, as a register value. -/
def fromTop (k : Nat) : Word := BitVec.ofNat 32 (top - k)

theorem toNat_fromTop (k : Nat) : (fromTop k).toNat = top - k := by
  have := top_le
  unfold fromTop
  rw [BitVec.toNat_ofNat, Nat.mod_eq_of_lt]
  omega

theorem holds_written (a : Nat) (bytes : List Byte) : HoldsBytes (memWrite [] a bytes) a bytes := by
  intro i hi
  rw [readByte_memWrite_in _ _ _ hi]

/-- The 24 bytes of the reset state's empty frame with a name: any 24 bytes will do for PARSE. -/
def someBytes (n : Nat) : List Byte := (List.range n).map (fun i => BitVec.ofNat 8 (i + 1))

theorem length_someBytes (n : Nat) : (someBytes n).length = n := by simp [someBytes]

/-- A state for PARSE: 24 bytes at `SRC_ADDR`, the first `k` of them written. -/
def parseAt (src : Word) (k : Nat) : State :=
  withBytes { State.reset with ops := { State.reset.ops with srcAddr := src } } src.toNat (someBytes k)

/-- A state for CKSUM, VERIFY: `n` is both PAY_LEN and HDR_DATA_LEN, and the first `k` bytes are written. -/
def payAt (a n : Word) (k : Nat) : State :=
  withBytes
    { State.reset with
      ops := { State.reset.ops with payAddr := a, payLen := n }, hdr := { State.reset.hdr with dataLen := n } }
    a.toNat (someBytes k)

/-- A state for FRAME within 32 bytes: the output at 0, a name at 26, a payload at 30. -/
def frameAt (dst : Word) (nameLen payLen : Word) (name payload : List Byte) : State :=
  withBytes
    (withBytes
      { State.reset with
        ops := {
          State.reset.ops with cmdAddr := 26, cmdLen := nameLen, payAddr := 30, payLen := payLen, dstAddr := dst } }
      26 name)
    30 payload

/-- SRC_ADDR = MEM_BYTES - 24 is the last that is in range, MEM_BYTES - 23 the first that is not (40_header_parse.md R120). -/
theorem witness_ParseMeaning :
    (InRange (parseAt (fromTop 24) 24).ops.srcAddr.toNat 24 ∧ (someBytes 24).length = 24 ∧
      HoldsBytes (parseAt (fromTop 24) 24).mem (parseAt (fromTop 24) 24).ops.srcAddr.toNat (someBytes 24)) ∧
    ¬ InRange (parseAt (fromTop 23) 24).ops.srcAddr.toNat 24 ∧
    (InRange (parseAt 0 23).ops.srcAddr.toNat 24 ∧ HasUnwritten (parseAt 0 23).mem (parseAt 0 23).ops.srcAddr.toNat 24) := by
  have := top_ge
  refine ⟨⟨inRange_of_le ?_, by decide, holds_written _ _⟩, not_inRange (by decide) ?_, inRange_low (by decide),
    23, by decide, by decide⟩
  · show (fromTop 24).toNat + 24 ≤ top
    rw [toNat_fromTop]
    omega
  · show top < (fromTop 23).toNat + 24
    rw [toNat_fromTop]
    omega

/-- A region that ends exactly at MEM_BYTES, one a byte longer (95_test_vectors.md K-5, K-6), and an unwritten one. -/
theorem payAt_cases :
    (InRange (payAt (fromTop 4) 4 4).ops.payAddr.toNat 4 ∧
      HoldsBytes (payAt (fromTop 4) 4 4).mem (payAt (fromTop 4) 4 4).ops.payAddr.toNat (someBytes 4)) ∧
    ¬ InRange (payAt (fromTop 4) 5 4).ops.payAddr.toNat 5 ∧
    (InRange (payAt 0 4 3).ops.payAddr.toNat 4 ∧ HasUnwritten (payAt 0 4 3).mem (payAt 0 4 3).ops.payAddr.toNat 4) := by
  have := top_ge
  refine ⟨⟨inRange_of_le ?_, holds_written _ _⟩, not_inRange (by decide) ?_, inRange_low (by decide), 3, by decide,
    by decide⟩
  · show (fromTop 4).toNat + 4 ≤ top
    rw [toNat_fromTop]
    omega
  · show top < (fromTop 4).toNat + 5
    rw [toNat_fromTop]
    omega

theorem witness_CksumMeaning :
    (InRange (payAt (fromTop 4) 4 4).ops.payAddr.toNat (payAt (fromTop 4) 4 4).ops.payLen.toNat ∧
      (someBytes 4).length = (payAt (fromTop 4) 4 4).ops.payLen.toNat ∧
      HoldsBytes (payAt (fromTop 4) 4 4).mem (payAt (fromTop 4) 4 4).ops.payAddr.toNat (someBytes 4)) ∧
    ¬ InRange (payAt (fromTop 4) 5 4).ops.payAddr.toNat (payAt (fromTop 4) 5 4).ops.payLen.toNat ∧
    (InRange (payAt 0 4 3).ops.payAddr.toNat (payAt 0 4 3).ops.payLen.toNat ∧
      HasUnwritten (payAt 0 4 3).mem (payAt 0 4 3).ops.payAddr.toNat (payAt 0 4 3).ops.payLen.toNat) :=
  ⟨⟨payAt_cases.1.1, length_someBytes 4, payAt_cases.1.2⟩, payAt_cases.2.1, payAt_cases.2.2⟩

theorem witness_CksumOfNothing : (payAt 0xFFFFFFFF 0 0).ops.payLen = 0 := rfl

theorem witness_VerifyMeaning :
    ((false = false ∨ true = false) ∧ (true = false ∨ false = false)) ∧
    (InRange (payAt (fromTop 4) 4 4).ops.payAddr.toNat (payAt (fromTop 4) 4 4).hdr.dataLen.toNat ∧
      (someBytes 4).length = (payAt (fromTop 4) 4 4).hdr.dataLen.toNat ∧
      HoldsBytes (payAt (fromTop 4) 4 4).mem (payAt (fromTop 4) 4 4).ops.payAddr.toNat (someBytes 4)) ∧
    ¬ InRange (payAt (fromTop 4) 5 4).ops.payAddr.toNat (payAt (fromTop 4) 5 4).hdr.dataLen.toNat ∧
    (InRange (payAt 0 4 3).ops.payAddr.toNat (payAt 0 4 3).hdr.dataLen.toNat ∧
      HasUnwritten (payAt 0 4 3).mem (payAt 0 4 3).ops.payAddr.toNat (payAt 0 4 3).hdr.dataLen.toNat) :=
  ⟨⟨.inl rfl, .inr rfl⟩, ⟨payAt_cases.1.1, length_someBytes 4, payAt_cases.1.2⟩, payAt_cases.2.1, payAt_cases.2.2⟩

theorem witness_ParseLeavesTheRest : ∃ t, exec .parse (parseAt 8 24) = .next t :=
  (eq_next (by decide)).imp fun _ h => h.1

theorem witness_CksumLeavesTheRest : ∃ t, exec .cksum (payAt 28 4 4) = .next t :=
  (eq_next (by decide)).imp fun _ h => h.1

theorem witness_VerifyLeavesTheRest :
    (∃ t, exec (.verify true true) (payAt 28 4 4) = .next t) ∧
    (∃ t, exec (.verify true false) (payAt 28 4 4) = .next t) ∧ (true = false ∨ false = false) :=
  ⟨(eq_next (by decide)).imp fun _ h => h.1, (eq_next (by decide)).imp fun _ h => h.1, .inr rfl⟩

/-- A header checksum given as four bytes. -/
def checksumAt (sum : Word) : State := { payAt 28 4 4 with hdr := { (payAt 28 4 4).hdr with checksum := sum } }

theorem witness_VerifyComparesFourBytes :
    InRange (checksumAt (le32 [1, 2, 3, 4])).ops.payAddr.toNat (checksumAt (le32 [1, 2, 3, 4])).hdr.dataLen.toNat ∧
    (someBytes 4).length = (checksumAt (le32 [1, 2, 3, 4])).hdr.dataLen.toNat ∧
    HoldsBytes (checksumAt (le32 [1, 2, 3, 4])).mem (checksumAt (le32 [1, 2, 3, 4])).ops.payAddr.toNat (someBytes 4) ∧
    [(1 : Byte), 2, 3, 4].length = 4 ∧ (checksumAt (le32 [1, 2, 3, 4])).hdr.checksum = le32 [1, 2, 3, 4] :=
  ⟨inRange_low (by decide), length_someBytes 4, holds_written _ _, rfl, rfl⟩

theorem witness_MismatchIsNoError :
    (true = false ∨ false = false) ∧
    InRange (checksumAt (le32 (cksum params (someBytes 4)) + 1)).ops.payAddr.toNat
      (checksumAt (le32 (cksum params (someBytes 4)) + 1)).hdr.dataLen.toNat ∧
    (someBytes 4).length = (checksumAt (le32 (cksum params (someBytes 4)) + 1)).hdr.dataLen.toNat ∧
    HoldsBytes (checksumAt (le32 (cksum params (someBytes 4)) + 1)).mem
      (checksumAt (le32 (cksum params (someBytes 4)) + 1)).ops.payAddr.toNat (someBytes 4) ∧
    le32 (cksum params (someBytes 4)) ≠ (checksumAt (le32 (cksum params (someBytes 4)) + 1)).hdr.checksum := by
  refine ⟨.inr rfl, inRange_low (by decide), length_someBytes 4, holds_written _ _, ?_⟩
  show le32 (cksum params (someBytes 4)) ≠ le32 (cksum params (someBytes 4)) + 1
  generalize le32 (cksum params (someBytes 4)) = x
  bv_omega

theorem witness_ChecksumCommandsAgree :
    InRange (payAt 28 4 4).ops.payAddr.toNat (someBytes 4).length ∧
    HoldsBytes (payAt 28 4 4).mem (payAt 28 4 4).ops.payAddr.toNat (someBytes 4) ∧
    (payAt 28 4 4).ops.payLen.toNat = (someBytes 4).length ∧ (payAt 28 4 4).hdr.dataLen.toNat = (someBytes 4).length :=
  ⟨inRange_low (by decide), holds_written _ _, (length_someBytes 4).symm, (length_someBytes 4).symm⟩

/-- The hypotheses on FRAME's regions: all in MEM, and the output clear of both inputs. -/
def FrameClear (s : State) : Prop :=
  InRange s.ops.cmdAddr.toNat (min s.ops.cmdLen.toNat 12) ∧ InRange s.ops.payAddr.toNat s.ops.payLen.toNat ∧
    InRange s.ops.dstAddr.toNat (24 + s.ops.payLen.toNat) ∧
    ∀ x, InRegion x s.ops.dstAddr.toNat (24 + s.ops.payLen.toNat) →
      ¬ InRegion x s.ops.cmdAddr.toNat (min s.ops.cmdLen.toNat 12) ∧
      ¬ InRegion x s.ops.payAddr.toNat s.ops.payLen.toNat

/-- FRAME's regions within 32 bytes: the output at 0 to 25, a name at 26 to 29, a payload at 30 and 31. -/
theorem frameAt_clear (name payload : List Byte) : FrameClear (frameAt 0 4 2 name payload) := by
  refine ⟨inRange_low (by decide : 26 + 4 ≤ 32), inRange_low (by decide : 30 + 2 ≤ 32),
    inRange_low (by decide : 0 + (24 + 2) ≤ 32), ?_⟩
  intro x hx
  have h : x < 26 := hx.2
  exact ⟨fun hc => absurd (show 26 ≤ x from hc.1) (by omega), fun hc => absurd (show 30 ≤ x from hc.1) (by omega)⟩

theorem witness_FrameWritesMessage :
    ∃ s : State, FrameClear s ∧ IsName s.mem s.ops.cmdAddr.toNat (min s.ops.cmdLen.toNat 12) (ascii "ping") ∧
      (ascii "hi").length = s.ops.payLen.toNat ∧ HoldsBytes s.mem s.ops.payAddr.toNat (ascii "hi") := by
  refine ⟨frameAt 0 4 2 (ascii "ping") (ascii "hi"), frameAt_clear _ _, ?_⟩
  unfold IsName HoldsBytes
  decide

/-- RANGE for an output region a byte past the end of MEM, and OVERLAP for one that shares its last byte with the name. -/
theorem witness_FrameErrors :
    ¬ (InRange (frameAt (fromTop 25) 4 2 [] []).ops.cmdAddr.toNat
          (min (frameAt (fromTop 25) 4 2 [] []).ops.cmdLen.toNat 12) ∧
        InRange (frameAt (fromTop 25) 4 2 [] []).ops.payAddr.toNat (frameAt (fromTop 25) 4 2 [] []).ops.payLen.toNat ∧
        InRange (frameAt (fromTop 25) 4 2 [] []).ops.dstAddr.toNat
          (24 + (frameAt (fromTop 25) 4 2 [] []).ops.payLen.toNat)) ∧
    (InRange (frameAt 1 4 2 [] []).ops.cmdAddr.toNat (min (frameAt 1 4 2 [] []).ops.cmdLen.toNat 12) ∧
      InRange (frameAt 1 4 2 [] []).ops.payAddr.toNat (frameAt 1 4 2 [] []).ops.payLen.toNat ∧
      InRange (frameAt 1 4 2 [] []).ops.dstAddr.toNat (24 + (frameAt 1 4 2 [] []).ops.payLen.toNat) ∧
      ∃ x, InRegion x (frameAt 1 4 2 [] []).ops.dstAddr.toNat (24 + (frameAt 1 4 2 [] []).ops.payLen.toNat) ∧
        (InRegion x (frameAt 1 4 2 [] []).ops.cmdAddr.toNat (min (frameAt 1 4 2 [] []).ops.cmdLen.toNat 12) ∨
          InRegion x (frameAt 1 4 2 [] []).ops.payAddr.toNat (frameAt 1 4 2 [] []).ops.payLen.toNat)) := by
  refine ⟨fun h => absurd h.2.2 (not_inRange (by decide) ?_), inRange_low (by decide : 26 + 4 ≤ 32),
    inRange_low (by decide : 30 + 2 ≤ 32), inRange_low (by decide : 1 + (24 + 2) ≤ 32), 26, ⟨by decide, by decide⟩,
    .inl ⟨by decide, by decide⟩⟩
  show top < (fromTop 25).toNat + 26
  rw [toNat_fromTop]
  have := top_ge
  omega

/-- FRAME's two ways to meet an unwritten byte: in the payload, and in the name. -/
theorem witness_FrameNeedsItsInputs :
    (∃ s : State, FrameClear s ∧ HasUnwritten s.mem s.ops.payAddr.toNat s.ops.payLen.toNat) ∧
    ∃ s : State, FrameClear s ∧ ∃ k, k < min s.ops.cmdLen.toNat 12 ∧ readByte s.mem (s.ops.cmdAddr.toNat + k) = none ∧
      ∀ j, j < k → readByte s.mem (s.ops.cmdAddr.toNat + j) ≠ some 0#8 :=
  ⟨⟨frameAt 0 4 2 (ascii "ping") (ascii "h"), frameAt_clear _ _, 1, by decide, by decide⟩,
    frameAt 0 4 2 (ascii "pin") (ascii "hi"), frameAt_clear _ _, 3, by decide, by decide, by decide⟩

theorem witness_FrameWithoutPayload :
    ∃ t, exec .frame (frameAt 0 4 0 (ascii "ping") []) = .next t ∧ t.status.err = .none ∧
      (frameAt 0 4 0 (ascii "ping") []).ops.payLen = 0 := by
  obtain ⟨t, h, hn⟩ := eq_next (o := exec .frame (frameAt 0 4 0 (ascii "ping") [])) (by decide)
  refine ⟨t, h, ?_, rfl⟩
  have : (nextOf (exec .frame (frameAt 0 4 0 (ascii "ping") []))).map (·.status.err) = some .none := by decide
  rw [hn] at this
  exact Option.some.inj this

/-- A FRAME with a name and a payload completes: what the statements about a successful FRAME assume. -/
theorem frame_completes :
    ∃ t, exec .frame (frameAt 0 4 2 (ascii "ping") (ascii "hi")) = .next t ∧ t.status.err = .none := by
  obtain ⟨t, h, hn⟩ := eq_next (o := exec .frame (frameAt 0 4 2 (ascii "ping") (ascii "hi"))) (by decide)
  refine ⟨t, h, ?_⟩
  have : (nextOf (exec .frame (frameAt 0 4 2 (ascii "ping") (ascii "hi")))).map (·.status.err) = some .none := by
    decide
  rw [hn] at this
  exact Option.some.inj this

theorem witness_FrameTruncatesLongName :
    (12 ≤ (16 : Word).toNat ∧ (ascii "abcdefghijkl").length = 12 ∧ (0#8) ∉ ascii "abcdefghijkl" ∧
      HoldsBytes (memWrite [] 0x300 (ascii "abcdefghijkl")) 0x300 (ascii "abcdefghijkl")) ∧
    ∃ t, exec .frame (frameAt 0 4 2 (ascii "ping") (ascii "hi")) = .next t ∧ t.status.err = .none :=
  ⟨⟨by decide, by decide, by decide, holds_written _ _⟩, frame_completes⟩

theorem witness_FrameLengthIsExact :
    ∃ t, exec .frame (frameAt 0 4 2 (ascii "ping") (ascii "hi")) = .next t ∧ t.status.err = .none := frame_completes

theorem witness_FrameLeavesTheRest :
    ∃ t, exec .frame (frameAt 0 4 2 (ascii "ping") (ascii "hi")) = .next t ∧
      ¬ InRegion 26 (frameAt 0 4 2 (ascii "ping") (ascii "hi")).ops.dstAddr.toNat
        (24 + (frameAt 0 4 2 (ascii "ping") (ascii "hi")).ops.payLen.toNat) := by
  obtain ⟨t, h, -⟩ := frame_completes
  exact ⟨t, h, fun hc => absurd hc.2 (by decide)⟩

theorem witness_FrameParseVerifyRoundTrip :
    ∃ t, exec .frame (frameAt 0 4 2 (ascii "ping") (ascii "hi")) = .next t ∧ t.status.err = .none := frame_completes

/-- A command that fails: PARSE past the end of MEM. -/
theorem parse_fails : ∃ t, exec .parse (parseAt 0xFFFFFFFF 0) = .next t ∧ t.status.err ≠ .none := by
  have h : ¬ InRange (parseAt 0xFFFFFFFF 0).ops.srcAddr.toNat 24 :=
    not_inRange (by decide) (by
      show top < 0xFFFFFFFF + 24
      have := top_le
      omega)
  rcases execParse_cases (parseAt 0xFFFFFFFF 0) with ⟨-, he⟩ | ⟨hr, -⟩ | ⟨hr, -⟩
  · exact ⟨_, he, by simp⟩
  · exact absurd hr h
  · exact absurd hr h

theorem witness_FailedCommandWritesOnlyStatus :
    ∃ t, exec .parse (parseAt 0xFFFFFFFF 0) = .next t ∧ t.status.err ≠ .none := parse_fails

theorem witness_CompletionFlags :
    (∃ t, exec .parse (parseAt 0xFFFFFFFF 0) = .next t ∧ t.status.err ≠ .none) ∧
    ∃ t, exec .frame (frameAt 0 4 2 (ascii "ping") (ascii "hi")) = .next t := by
  obtain ⟨t, h, -⟩ := frame_completes
  exact ⟨parse_fails, t, h⟩

/-- Each command meets an unwritten byte somewhere. -/
theorem witness_CommandFaultsOnlyOnUnwrittenByte :
    exec .parse (parseAt 0 23) = .fault .uninitRead ∧ exec .cksum (payAt 28 4 3) = .fault .uninitRead ∧
    exec (.verify true true) (payAt 28 4 3) = .fault .uninitRead ∧
    exec .frame (frameAt 0 4 2 (ascii "pin") (ascii "hi")) = .fault .uninitRead :=
  ⟨eq_fault (by decide), eq_fault (by decide), eq_fault (by decide), eq_fault (by decide)⟩

theorem witness_EngineWritesOnlyItsResults :
    (∃ t, exec .parse (parseAt 8 24) = .next t) ∧ ∃ t, exec .cksum (payAt 28 4 4) = .next t :=
  ⟨witness_ParseLeavesTheRest, witness_CksumLeavesTheRest⟩

theorem witness_StepRunsLatchedCommand :
    (startCommand (encode .parse) (withEvents [.engine])).rst = false ∧
    (startCommand (encode .parse) (withEvents [.engine])).status.busy = true ∧
    (startCommand (encode .parse) (withEvents [.engine])).events = [.engine] ∧
    (startCommand (encode .parse) (withEvents [])).status.busy = true ∧
    (startCommand (encode .parse) (withEvents [])).events = [] := by decide

theorem witness_StepRunsPlacedWord : decode 0x00000303#32 = .legal (.verify true true) := by decide

theorem witness_IdleEngineChangesNothing :
    (withEvents [.engine]).status.busy = false ∧ (withEvents [.engine]).events = [.engine] ∧
    (withEvents []).status.busy = false ∧ (withEvents []).events = [] := by decide

/-- A BUSY state with events pending. -/
def busyWith (es : List Event) : State := startCommand (encode .parse) (withEvents es)

theorem witness_CmdWriteStartsOrRejects :
    (IdleNext (withEvents [wr .cmd 4]) (wr .cmd 4) [] ∧ decode 4 = .legal .frame) ∧
    (IdleNext (withEvents [wr .cmd 5]) (wr .cmd 5) [] ∧ decode 5 = .illegal .noSuchOp) ∧
    BusyNext (busyWith [wr .cmd 4]) (wr .cmd 4) [] ∧ IdleNext (withEvents [rd .cmd]) (rd .cmd) [] := by
  unfold IdleNext BusyNext
  decide

theorem witness_WaitLoopEndsInCompletion :
    (busyWith (wait 2)).rst = false ∧ (busyWith (wait 2)).status.busy = true ∧ (busyWith (wait 2)).events = wait 2 := by
  decide

theorem witness_CommandFromWriteToCompletion :
    IdleNext (withEvents (cmd .cksum :: wait 2)) (cmd .cksum) (wait 2) := by
  unfold IdleNext
  decide

theorem witness_InterruptLevel :
    (∃ t, exec .parse (parseAt 8 24) = .next t) ∧ IdleNext (withEvents [ackDone]) ackDone [] ∧
    IdleNext (withEvents [cmd .frame]) (cmd .frame) [] ∧ IdleNext (withEvents [rd .status]) (rd .status) [] := by
  refine ⟨witness_ParseLeavesTheRest, ?_⟩
  unfold IdleNext
  decide

theorem witness_DoneIsClearedOnlyBy :
    ∃ t, step (doneState ackDone) = .next t ∧ (doneState ackDone).status.done = true ∧ t.status.done = false := by
  obtain ⟨t, h, hn⟩ := eq_next (o := step (doneState ackDone)) (by decide)
  refine ⟨t, h, rfl, ?_⟩
  have : (nextOf (step (doneState ackDone))).map (·.status.done) = some false := by decide
  rw [hn] at this
  exact Option.some.inj this

theorem witness_RegisterReads (r : RegName) (h : r ≠ .status) :
    IdleNext (withEvents [rd r]) (rd r) [] ∧
    (r, readReg State.reset r) ∈ [(RegName.id, 0x56434844#32), (.ctrl, if State.reset.ie then 1#32 else 0#32),
      (.cmd, 0#32), (.srcAddr, State.reset.ops.srcAddr), (.payAddr, State.reset.ops.payAddr),
      (.payLen, State.reset.ops.payLen), (.cmdAddr, State.reset.ops.cmdAddr), (.cmdLen, State.reset.ops.cmdLen),
      (.dstAddr, State.reset.ops.dstAddr), (.magic, State.reset.ops.magic), (.outLen, State.reset.outLen),
      (.cksumOut, State.reset.cksumOut), (.hdrMagic, State.reset.hdr.magic), (.hdrCmd0, State.reset.hdr.cmd0),
      (.hdrCmd1, State.reset.hdr.cmd1), (.hdrCmd2, State.reset.hdr.cmd2), (.hdrDataLen, State.reset.hdr.dataLen),
      (.hdrChecksum, State.reset.hdr.checksum)] := by
  refine ⟨⟨rfl, rfl, rfl⟩, ?_⟩
  cases r <;> first | exact absurd rfl h | decide

theorem witness_IdRegister :
    (busyWith [rd .id]).rst = false ∧ (busyWith [rd .id]).events = [rd .id] ∧
    IdleNext (withEvents [wr .id 7]) (wr .id 7) [] := by
  unfold IdleNext
  decide

theorem witness_CtrlKeepsBitZero :
    (busyWith [wr .ctrl 0xFFFFFFFF, rd .ctrl]).rst = false ∧
    (busyWith [wr .ctrl 0xFFFFFFFF, rd .ctrl]).events = [wr .ctrl 0xFFFFFFFF, rd .ctrl] := by decide

theorem witness_StatusLayout : (busyWith [rd .status]).rst = false ∧ (busyWith [rd .status]).events = [rd .status] := by
  decide

theorem witness_StatusWriteClearsDone : IdleNext (doneState ackDone) (wr .status 2) [] := by
  unfold IdleNext
  decide

theorem witness_HostWritesHold (r : RegName) : IdleNext (withEvents [wr r 0xFFFFFFFF, rd r]) (wr r 0xFFFFFFFF) [rd r] :=
  ⟨rfl, rfl, rfl⟩

theorem witness_ReadOnlyRegistersIgnoreWrites :
    RegName.outLen ∈ [RegName.id, .outLen, .cksumOut] ∧ IdleNext (withEvents [wr .outLen 5]) (wr .outLen 5) [] := by
  unfold IdleNext
  decide

/-- One access for each clause: a read of STATUS, writes of CTRL and STATUS, and 95_test_vectors.md S-8 and S-10. -/
theorem witness_AccessWhileBusy :
    BusyNext (busyWith [rd .status]) (rd .status) [] ∧ BusyNext (busyWith [wr .ctrl 1]) (wr .ctrl 1) [] ∧
    BusyNext (busyWith [wr .status 2]) (wr .status 2) [] ∧ (busyWith [wr .status 2]).status.done = false ∧
    BusyNext (busyWith [rd .cksumOut]) (rd .cksumOut) [] ∧ BusyNext (busyWith [mr .w8 0]) (mr .w8 0) [] ∧
    ∀ off op, off ∈ [0x000, 0x004, 0x008] → (off = 0x000 → op = .read) →
      (⟨.mem, .w8, 0, .read⟩ : Access) ≠ ⟨.reg, .w32, off, op⟩ := by
  refine ⟨?_, ?_, ?_, by decide, ?_, ?_, fun _ _ _ _ h => by simp at h⟩ <;> unfold BusyNext <;> decide

theorem witness_BusErrorExactly :
    (withEvents [mr .w8 0x1000]).events = [.access ⟨.mem, .w8, 0x1000, .read⟩] := rfl

/-- With REG_BASE = 0 and MEM_BASE = 4096: the last byte of one window and the first of the other. -/
theorem witness_WindowsReachTheirPorts :
    (InRegion 4095 vectorParams.regBase 4096 ∧ ¬ InRegion 4095 vectorParams.memBase (2 ^ vectorParams.memAw)) ∧
    InRegion 4096 vectorParams.memBase (2 ^ vectorParams.memAw) ∧ ¬ InRegion 4096 vectorParams.regBase 4096 ∧
    (withEvents [.platform 4096 .w8 .read]).events = [.platform 4096 .w8 .read] := by
  unfold InRegion
  decide

theorem witness_HostBufferWrite :
    IdleNext (withEvents [mw .w16 30 0xABCD]) (mw .w16 30 0xABCD) [] ∧ 30 % Width.w16.bytes = 0 ∧
    30 + Width.w16.bytes ≤ 2 ^ params.memAw :=
  ⟨⟨rfl, rfl, rfl⟩, rfl, top_ge⟩

/-- The last byte of MEM, written and not. -/
theorem witness_HostBufferRead :
    (IdleNext (withBytes (withEvents [mr .w8 (top - 1)]) (top - 1) [7]) (mr .w8 (top - 1)) [] ∧
      (top - 1) % Width.w8.bytes = 0 ∧ top - 1 + Width.w8.bytes ≤ 2 ^ params.memAw ∧
      HoldsBytes (withBytes (withEvents [mr .w8 (top - 1)]) (top - 1) [7]).mem (top - 1) [7]) ∧
    IdleNext (withEvents [mr .w32 28]) (mr .w32 28) [] ∧ HasUnwritten (withEvents [mr .w32 28]).mem 28 4 := by
  refine ⟨⟨⟨rfl, rfl, rfl⟩, Nat.mod_one _, ?_, holds_written _ _⟩, ⟨rfl, rfl, rfl⟩, 0, by decide, rfl⟩
  have := top_ge
  show top - 1 + 1 ≤ top
  omega

/-- The last byte of a word at the end of the first 32 bytes, and the fields of a header PARSE has read at 8. -/
theorem witness_MixedWidthAccesses :
    (IdleNext (withEvents [mw .w32 28 0x676E6970, mr .w8 31]) (mw .w32 28 0x676E6970) [mr .w8 (28 + 3)] ∧
      28 % 4 = 0 ∧ 28 + 4 ≤ 2 ^ params.memAw) ∧
    (∃ u, exec .parse { parseAt 8 24 with events := [mr .w32 28] } = .next u ∧ u.status.err = .none) ∧
    (parseAt 8 24).ops.srcAddr.toNat % 4 = 0 ∧
    IdleNext { parseAt 8 24 with events := [mr .w32 24] } (mr .w32 ((parseAt 8 24).ops.srcAddr.toNat + 16)) [] ∧
    IdleNext { parseAt 8 24 with events := [mr .w32 28] } (mr .w32 ((parseAt 8 24).ops.srcAddr.toNat + 20)) [] := by
  refine ⟨⟨⟨rfl, rfl, rfl⟩, rfl, top_ge⟩, ?_, rfl, ⟨rfl, rfl, rfl⟩, ⟨rfl, rfl, rfl⟩⟩
  obtain ⟨u, h, hn⟩ := eq_next (o := exec .parse { parseAt 8 24 with events := [mr .w32 28] }) (by decide)
  refine ⟨u, h, ?_⟩
  have : (nextOf (exec .parse { parseAt 8 24 with events := [mr .w32 28] })).map (·.status.err) = some .none := by decide
  rw [hn] at this
  exact Option.some.inj this

theorem witness_OverlapIsASharedByte : InRegion 9 0 10 ∧ InRegion 9 9 1 := by
  unfold InRegion
  decide

theorem witness_MemChangesOnlyBy :
    ∃ t, step (withEvents [mw .w8 31 5]) = .next t ∧
      readByte t.mem 31 ≠ readByte (withEvents [mw .w8 31 5]).mem 31 := by
  obtain ⟨t, h, hn⟩ := eq_next (o := step (withEvents [mw .w8 31 5])) (by decide)
  refine ⟨t, h, ?_⟩
  have : (nextOf (step (withEvents [mw .w8 31 5]))).map (fun u => readByte u.mem 31) = some (some 5) := by decide
  rw [hn] at this
  have h31 : readByte t.mem 31 = some 5 := Option.some.inj this
  rw [h31]
  decide

theorem witness_InputsFixedWhileBusy :
    BusyNext (busyWith [wr .ctrl 1]) (wr .ctrl 1) [] ∧ (∃ t, step (busyWith [wr .ctrl 1]) = .next t) ∧
    ∃ a, wr .ctrl 1 = .access a :=
  ⟨⟨rfl, rfl, rfl⟩, (eq_next (by decide)).imp fun _ h => h.1, _, rfl⟩

theorem witness_ResetFromAnyState :
    (busyWith [.assertRst, .releaseRst]).events = [.assertRst, .releaseRst] ∧
    (blockReset true (withEvents [rd .id])).rst = true ∧ (blockReset true (withEvents [rd .id])).events = [rd .id] ∧
    (blockReset true (withEvents [.engine])).rst = true ∧
    (blockReset true (withEvents [.engine])).events = [.engine] := by decide

theorem witness_StepKeepsInvariant : BlockInv (withEvents [wr .ctrl 1]) ∧ ∃ t, step (withEvents [wr .ctrl 1]) = .next t :=
  ⟨⟨rfl, fun h => absurd h (by decide), fun h => absurd h (by decide), .inl rfl, fun h => absurd h (by decide)⟩,
    (eq_next (by decide)).imp fun _ h => h.1⟩

end Sys2Proof.Tests
end

namespace Sys2Proof.Machine

/-! ### Byte order (00_scope.md R11) -/

/-- R11's little-endian sum, each byte with its own weight. -/
theorem leNat_four (b0 b1 b2 b3 : Byte) :
    leNat [b0, b1, b2, b3] = b0.toNat + 2 ^ 8 * b1.toNat + 2 ^ 16 * b2.toNat + 2 ^ 24 * b3.toNat := by
  simp only [leNat]
  omega

/-- `le32(unle32(v)) = v` (R11). -/
@[simp] theorem le32_unle32 (v : Word) : le32 (unle32 v) = v := by
  have hlt : v.toNat < 256 ^ 4 := v.isLt
  apply BitVec.eq_of_toNat_eq
  rw [toNat_le32 (length_unle32 v).le, unle32, leNat_leBytes, Nat.mod_eq_of_lt hlt]

/-- `unle32(le32(s)) = s` for the four bytes of a word (R11): both strings make the same number. -/
theorem unle32_le32 {s : List Byte} (h : s.length = 4) : unle32 (le32 s) = s := by
  apply leNat_injective ((length_unle32 _).trans h.symm)
  rw [← toNat_le32 (length_unle32 _).le, le32_unle32, toNat_le32 h.le]

/-- The byte `v[i+7:i]`, as `leBytes` takes it: the low byte of `v` shifted down by `i`. -/
theorem extractLsb'_byte (v : Word) (i : Nat) : v.extractLsb' i 8 = (v >>> i).setWidth 8 := by
  apply BitVec.eq_of_toNat_eq
  rw [BitVec.extractLsb'_toNat, BitVec.toNat_setWidth, BitVec.toNat_ushiftRight]

/-- `unle32(v)` is the bytes `v[7:0]`, `v[15:8]`, `v[23:16]`, `v[31:24]` (R11). -/
theorem unle32_eq_extract (v : Word) :
    unle32 v = [v.extractLsb' 0 8, v.extractLsb' 8 8, v.extractLsb' 16 8, v.extractLsb' 24 8] := by
  simp only [unle32, leBytes, ← BitVec.shiftRight_add, extractLsb'_byte, BitVec.ushiftRight_zero]

/-- Settles O48: the sum is `leNat`'s, the bytes are `leBytes`'s, and each conversion undoes the other. -/
theorem packingRoundTrip : Obligations.PackingRoundTrip := by
  unfold Obligations.PackingRoundTrip
  refine ⟨fun b0 b1 b2 b3 => ⟨?_, unle32_le32 rfl⟩, fun v => ⟨unle32_eq_extract v, le32_unle32 v⟩⟩
  rw [toNat_le32 (by simp), leNat_four]

/-! ### Every command has a meaning (00_scope.md R2, 30_encoding.md R93) -/

/-- A command answers a next state or the model fault UNINIT_READ, and nothing else (60_exceptions.md R206, R211). -/
theorem exec_next_or_uninitRead (i : Instr) (s : State) :
    (∃ t, exec i s = .next t) ∨ exec i s = .fault .uninitRead := by
  cases i with
  | parse =>
    rcases execParse_cases s with ⟨-, he⟩ | ⟨-, -, he⟩ | ⟨-, h, -, -, he⟩
    · exact .inl ⟨_, he⟩
    · exact .inr he
    · exact .inl ⟨_, he⟩
  | cksum =>
    rcases execCksum_cases s with ⟨-, he⟩ | ⟨-, -, he⟩ | ⟨-, p, -, -, he⟩
    · exact .inl ⟨_, he⟩
    · exact .inr he
    · exact .inl ⟨_, he⟩
  | verify m p =>
    cases hmp : m && p with
    | false => exact .inl ⟨_, execVerify_absent hmp s⟩
    | true =>
      obtain ⟨rfl, rfl⟩ : m = true ∧ p = true := by simpa using hmp
      rcases execVerify_cases s with ⟨-, he⟩ | ⟨-, -, he⟩ | ⟨-, p, -, -, he⟩
      · exact .inl ⟨_, he⟩
      · exact .inr he
      · exact .inl ⟨_, he⟩
  | frame =>
    rcases execFrame_cases s with ⟨-, he⟩ | ⟨-, -, he⟩ | ⟨-, -, he, -⟩ | ⟨-, -, name, p, -, -, -, he⟩
    · exact .inl ⟨_, he⟩
    · exact .inl ⟨_, he⟩
    · exact .inr he
    · exact .inl ⟨_, he⟩

/-- Settles O34: a next state or UNINIT_READ is no refusal. -/
theorem noCommandIsRefused : Obligations.NoCommandIsRefused := by
  unfold Obligations.NoCommandIsRefused
  intro i s r hr
  rcases exec_next_or_uninitRead i s with ⟨t, he⟩ | he
  · cases he.symm.trans hr
  · cases he.symm.trans hr

end Sys2Proof.Machine

namespace Sys2Proof.Machine

/-! ### Host accesses to registers, IDLE or BUSY (10_state.md R22, R45) -/

/-- The registers an access reaches while BUSY (R45), named by the register. -/
theorem allowedWhileBusy_reg_iff (w : Width) (r : RegName) (op : BusOp) :
    allowedWhileBusy ⟨.reg, w, r.offset, op⟩ = true ↔ (r = .id ∧ op = .read) ∨ r = .ctrl ∨ r = .status := by
  simp only [allowedWhileBusy, ofOffset_offset]
  cases r <;> cases op <;> simp

/-- An access R45 allows while BUSY is accepted out of reset, BUSY or not. -/
theorem accepts_reg_allowed {s : State} (hr : s.rst = false) {r : RegName} {op : BusOp}
    (h : (r = .id ∧ op = .read) ∨ r = .ctrl ∨ r = .status) :
    accepts params ⟨.reg, .w32, r.offset, op⟩ s = true :=
  (accepts_iff _ _).mpr ⟨hr, by simp [Access.shapeOk, offset_mod], rfl, .inr ((allowedWhileBusy_reg_iff _ _ _).mpr h)⟩

/-- CTRL is accessible out of reset, BUSY or not (R24). -/
theorem accepts_ctrl {s : State} (hr : s.rst = false) (op : BusOp) :
    accepts params ⟨.reg, .w32, RegName.ctrl.offset, op⟩ s = true :=
  accepts_reg_allowed hr (.inr (.inl rfl))

/-- STATUS is accessible out of reset, BUSY or not (R45). -/
theorem accepts_status {s : State} (hr : s.rst = false) (op : BusOp) :
    accepts params ⟨.reg, .w32, RegName.status.offset, op⟩ s = true :=
  accepts_reg_allowed hr (.inr (.inr rfl))

/-- An accepted access on the register port is a 32-bit access at the offset of a register (20_memory.md R65). -/
theorem reg_access_of_accepts {a : Access} {s : State} (hp : a.port = .reg) (h : accepts params a s = true) :
    ∃ (r : RegName) (op : BusOp), a = ⟨.reg, .w32, r.offset, op⟩ := by
  obtain ⟨port, width, off, op⟩ := a
  obtain rfl : port = .reg := hp
  obtain ⟨-, hshape, -, -⟩ := (accepts_iff _ _).mp h
  simp only [Access.shapeOk, Bool.and_eq_true, beq_iff_eq] at hshape
  obtain ⟨⟨rfl, -⟩, hmap⟩ := hshape
  obtain ⟨r, hr⟩ := Option.isSome_iff_exists.mp hmap
  exact ⟨r, op, by rw [offset_of_ofOffset hr]⟩

/-- Everything a BUSY block accepts: a register access R45 allows. -/
theorem accepts_busy {a : Access} {s : State} (hb : s.status.busy = true) (h : accepts params a s = true) :
    ∃ (r : RegName) (op : BusOp), a = ⟨.reg, .w32, r.offset, op⟩ ∧
      ((r = .id ∧ op = .read) ∨ r = .ctrl ∨ r = .status) := by
  cases hp : a.port with
  | reg =>
    obtain ⟨r, op, rfl⟩ := reg_access_of_accepts hp h
    obtain ⟨-, -, -, hidle | hallowed⟩ := (accepts_iff _ _).mp h
    · cases hb.symm.trans hidle
    · exact ⟨r, op, rfl, (allowedWhileBusy_reg_iff _ _ _).mp hallowed⟩
  | mem =>
    obtain ⟨port, width, off, op⟩ := a
    obtain rfl : port = .mem := hp
    rw [accepts_mem_busy hb] at h
    cases h

@[simp] theorem readReg_setEvents (es : List Event) (s : State) (r : RegName) :
    readReg (setEvents es s) r = readReg s r := by
  cases r <;> rfl

@[simp] theorem readReg_giveHost (v : Word) (s : State) (r : RegName) : readReg (giveHost v s) r = readReg s r := by
  cases r <;> rfl

/-- A step at a host access the port does not accept is a bus error (60_exceptions.md R207, R208). -/
theorem step_rejected {s : State} {a : Access} {es : List Event} (he : s.events = .access a :: es)
    (h : accepts params a s = false) : step s = .fault .busError := by
  rw [step_access he, hostAccess_rejected (by simpa using h)]

/-- A step at a register write while IDLE. -/
theorem step_wr_idle {s : State} {r : RegName} {v : Word} {es : List Event} (h : IdleNext s (wr r v) es) :
    step s = .next (writeReg (setEvents es s) v r) := by
  obtain ⟨hr, hb, he⟩ := h
  exact step_wr he (accepts_reg_idle hr hb r _)

/-- A step at an accepted register read records the register's value and takes the event, and does nothing else (R74). -/
theorem step_rd_records {s : State} {r : RegName} {es : List Event} (he : s.events = rd r :: es)
    (ha : accepts params ⟨.reg, .w32, r.offset, .read⟩ s = true) :
    step s = .next { s with events := es, reads := readReg s r :: s.reads } := by
  rw [step_rd he ha, readReg_setEvents]
  rfl

/-- A step at a register read while IDLE. -/
theorem step_rd_idle {s : State} {r : RegName} {es : List Event} (h : IdleNext s (rd r) es) :
    step s = .next { s with events := es, reads := readReg s r :: s.reads } := by
  obtain ⟨hr, hb, he⟩ := h
  exact step_rd_records he (accepts_reg_idle hr hb r _)

/-! ### What a register write leaves of each register -/

/-- A register write does not depend on what is due to happen. -/
theorem writeReg_setEvents (es : List Event) (s : State) (v : Word) (r : RegName) :
    writeReg (setEvents es s) v r = setEvents es (writeReg s v r) := by
  cases r with
  | cmd => simp only [writeReg, startCommand]; split <;> rfl
  | _ => rfl

/-- A register written and then read: the run's two steps, each access being accepted. -/
theorem stepsFrom_wr_rd {s : State} {r : RegName} {v : Word} {es : List Event} (he : s.events = wr r v :: rd r :: es)
    (hwrite : accepts params ⟨.reg, .w32, r.offset, .write v⟩ s = true)
    (hread : accepts params ⟨.reg, .w32, r.offset, .read⟩ (writeReg s v r) = true) :
    stepsFrom 2 s = .next (giveHost (readReg (writeReg s v r) r) (setEvents es (writeReg s v r))) := by
  have hw := step_wr he hwrite
  rw [writeReg_setEvents] at hw
  have hr := step_rd (es := es) (setEvents_events _ _) ((accepts_setEvents _ _ (rd r :: es) _).trans hread)
  rw [stepsFrom_next hw, stepsFrom_one, hr, readReg_setEvents, readReg_setEvents]
  rfl

/-- A write of any register but CMD reaches no other register (R22). -/
theorem readReg_writeReg_other {r q : RegName} (hcmd : r ≠ .cmd) (hq : q ≠ r) (s : State) (v : Word) :
    readReg (writeReg s v r) q = readReg s q := by
  cases r with
  | cmd => exact absurd rfl hcmd
  | _ => cases q <;> first | rfl | exact absurd rfl hq

/-- The registers that store what a host writes (R31 to R37, R40 to R43): every one but ID, CTRL, STATUS, CMD and the
results OUT_LEN and CKSUM_OUT. -/
def RegName.storesWrites : RegName → Bool
  | .id | .ctrl | .status | .cmd | .outLen | .cksumOut => false
  | _ => true

/-- A register that stores what is written reads it back. -/
theorem readReg_writeReg_same {r : RegName} (h : r.storesWrites = true) (s : State) (v : Word) :
    readReg (writeReg s v r) r = v := by
  cases r <;> first | rfl | cases h

/-- CMD and STATUS do not store what is written (R26, R30). -/
theorem RegName.ne_cmd_and_ne_status_of_storesWrites {r : RegName} (h : r.storesWrites = true) :
    r ≠ .cmd ∧ r ≠ .status := by
  constructor <;> rintro rfl <;> cases h

/-! ### How CTRL and STATUS read (R24 to R29) -/

/-- A flag is bit 0 of its word. -/
@[simp] theorem getElem_flagBit (b : Bool) {i : Nat} (h : i < 32) : (flagBit b)[i] = (decide (i = 0) && b) := by
  cases b <;> simp [flagBit]

/-- CTRL keeps bit 0 of a written value alone (R24). -/
theorem ctrlWord_getLsbD_zero (v : Word) : ctrlWord (v.getLsbD 0) = v &&& 1#32 := by
  apply BitVec.eq_of_getElem_eq
  intro i hi
  by_cases h : i = 0 <;> simp [ctrlWord, h]

/-- STATUS reads the sum of its fields, each at its place (R25 to R28). -/
theorem toNat_statusWord (st : Status) :
    (statusWord st).toNat =
      st.busy.toNat + 2 * st.done.toNat + 4 * st.valid.toNat + 16 * (errCode st.err).toNat := by
  obtain ⟨busy, done, valid, err⟩ := st
  revert busy done valid
  cases err <;> decide

/-- STATUS while a command runs (R30): BUSY alone. -/
@[simp] theorem statusWord_startedStatus (st : Status) : statusWord (startedStatus st) = 0x00000001#32 :=
  (by decide : statusWord { busy := true, done := false, valid := false, err := .none } = 0x00000001#32)

/-- A STATUS write has nothing to clear where DONE is 0 (R26). -/
theorem ackStatus_of_not_done {st : Status} (h : st.done = false) (v : Word) : ackStatus v st = st := by
  rw [ackStatus, h, Bool.false_and, ← h]

/-! ### Registers read and written by the host -/

/-- Settles O38: the value in each row is what `readReg` gives for that register, and STATUS has no row. -/
theorem registerReads : Obligations.RegisterReads := by
  unfold Obligations.RegisterReads
  intro s es r v hidle hrow
  obtain rfl : v = readReg s r := by
    cases r with
    | status => simp at hrow
    | _ => simpa [readReg, ctrlWord, flagBit] using hrow
  exact step_rd_idle hidle

/-- Settles O39: R45 allows the read while BUSY, and `writeReg` has no effect on ID. -/
theorem idRegister : Obligations.IdRegister := by
  unfold Obligations.IdRegister
  refine fun s es => ⟨fun hr he => ?_, fun v hidle => step_wr_idle hidle⟩
  exact step_rd_records he (accepts_reg_allowed hr (.inl ⟨rfl, rfl⟩))

/-- Settles O40: R45 allows both accesses while BUSY, and CTRL holds one bit. -/
theorem ctrlKeepsBitZero : Obligations.CtrlKeepsBitZero := by
  unfold Obligations.CtrlKeepsBitZero
  refine ⟨rfl, fun s v es hr he => ⟨_, ?_, rfl, rfl⟩⟩
  rw [stepsFrom_wr_rd he (accepts_ctrl hr _) (accepts_ctrl hr _), ← ctrlWord_getLsbD_zero]
  rfl

/-- Settles O41: R45 allows the read while BUSY, and the word is the sum of STATUS's fields. -/
theorem statusLayout : Obligations.StatusLayout := by
  unfold Obligations.StatusLayout
  intro s es hr he
  refine ⟨statusWord s.status, step_rd_records he (accepts_status hr _), ?_⟩
  have hsum := toNat_statusWord s.status
  have hb := Bool.toNat_le s.status.busy
  have hd := Bool.toNat_le s.status.done
  have hv := Bool.toNat_le s.status.valid
  refine ⟨by simp [statusWord], by simp [statusWord], by simp [statusWord], by simp [statusWord], ?_, ?_⟩
  · have := (errCode s.status.err).isLt
    omega
  · have herr : (statusWord s.status).toNat / 16 = (errCode s.status.err).toNat := by omega
    rw [herr]
    cases s.status.err <;> rfl

/-- Settles O42: the write leaves `ackStatus`. -/
theorem statusWriteClearsDone : Obligations.StatusWriteClearsDone := by
  unfold Obligations.StatusWriteClearsDone
  intro s v es hidle
  have hdone : (s.status.done && !v.getLsbD 1) = if v.getLsbD 1 then false else s.status.done := by
    cases v.getLsbD 1 <;> simp
  rw [step_wr_idle hidle, ← hdone]
  rfl

/-- Settles O43: the write step and the read step, by what `readReg` gives after `writeReg`. -/
theorem hostWritesHold : Obligations.HostWritesHold := by
  unfold Obligations.HostWritesHold
  intro s v es r hmem hidle
  have hstore : r.storesWrites = true := by
    cases r <;> simp [RegName.storesWrites] at hmem ⊢
  obtain ⟨hcmd, hstatus⟩ := RegName.ne_cmd_and_ne_status_of_storesWrites hstore
  obtain ⟨hr, hb, he⟩ := hidle
  have hread : accepts params ⟨.reg, .w32, r.offset, .read⟩ (writeReg s v r) = true :=
    accepts_reg_idle (by simpa using hr) (by rw [writeReg_status hcmd hstatus, hb]) r _
  have hsame := readReg_writeReg_same hstore s v
  refine ⟨_, stepsFrom_wr_rd he (accepts_reg_idle hr hb r _) hread, ?_, rfl, ?_, ?_, ?_, ?_, fun q hq => ?_⟩
  · simp [hsame]
  · simp
  · simp [writeReg_lop hcmd]
  · simp
  · simp [hsame]
  · simp [readReg_writeReg_other hcmd hq]

/-- Settles O44: `writeReg` has no effect on these three. -/
theorem readOnlyRegistersIgnoreWrites : Obligations.ReadOnlyRegistersIgnoreWrites := by
  unfold Obligations.ReadOnlyRegistersIgnoreWrites
  intro s v es r hmem hidle
  rw [step_wr_idle hidle]
  simp only [List.mem_cons, List.not_mem_nil, or_false] at hmem
  rcases hmem with rfl | rfl | rfl <;> rfl

/-- Settles O45: an accepted access is one of those R45 names, so any other is a bus error. -/
theorem accessWhileBusy : Obligations.AccessWhileBusy := by
  unfold Obligations.AccessWhileBusy
  rintro s a es ⟨hr, hb, he⟩
  refine ⟨?_, ?_, ?_, fun hother => ?_⟩
  · rintro r hmem rfl
    have hallowed : (r = .id ∧ BusOp.read = .read) ∨ r = .ctrl ∨ r = .status := by simpa using hmem
    exact step_rd_records he (accepts_reg_allowed hr hallowed)
  · rintro v rfl
    exact step_wr (r := .ctrl) he (accepts_ctrl hr _)
  · rintro v rfl hd
    have hack := ackStatus_of_not_done hd v
    rw [step_wr (r := .status) he (accepts_status hr _), writeReg, setEvents_status, hack]
    rfl
  · refine step_rejected he (Bool.eq_false_iff.mpr fun ha => ?_)
    obtain ⟨r, op, rfl, ⟨rfl, rfl⟩ | rfl | rfl⟩ := accepts_busy hb ha
    · exact hother 0x000 .read (by simp) (fun _ => rfl) rfl
    · exact hother 0x004 op (by simp) (by simp) rfl
    · exact hother 0x008 op (by simp) (by simp) rfl

/-- Settles O56: register by register. -/
theorem resetState : Obligations.ResetState := by
  unfold Obligations.ResetState
  refine ⟨fun r => ?_, rfl, readByte_nil⟩
  cases r <;> rfl

/-- Settles O59: no byte is listed, no flag is set, OUT_LEN is 0 and RST is released. -/
theorem resetMeetsInvariant : Obligations.ResetMeetsInvariant where
  mem := reset_memWf _
  busy := by simp
  valid := by simp
  outLen := .inl rfl
  rst := by simp

/-! ### A command, from its CMD write to its completion (R30, 60_exceptions.md R211) -/

/-- Settles O6: the engine's turn is next and the block is BUSY. -/
theorem stepRunsPlacedWord : Obligations.StepRunsPlacedWord := by
  unfold Obligations.StepRunsPlacedWord
  intro s w i hw
  have hplaced : decodeTableWord 32 w.toNat = some i := by
    simp [decodeTableWord, w.isLt, hw]
  have hload : s.withFetchWord 32 w.toNat =
      { s with rst := false, status := startedStatus s.status, lop := i, events := .engine :: s.events } := by
    simp [State.withFetchWord, loadCommand, hplaced]
  rw [hload, step_cons rfl]
  exact engineTurn_busy rfl rfl exec

/-- A CMD write of a legal word while IDLE latches its command and sets BUSY (R30). -/
theorem step_wr_cmd_legal {s : State} {w : Word} {i : Instr} {es : List Event} (h : IdleNext s (wr .cmd w) es)
    (hw : decode w = .legal i) :
    step s = .next { s with status := startedStatus s.status, lop := i, events := es } := by
  rw [step_wr_idle h, writeReg, startCommand_legal hw]
  rfl

/-- Settles O8: the two cases of `startCommand`, a rejected access, and a read. -/
theorem cmdWriteStartsOrRejects : Obligations.CmdWriteStartsOrRejects := by
  unfold Obligations.CmdWriteStartsOrRejects
  refine fun s w es => ⟨fun i hidle hw => step_wr_cmd_legal hidle hw, fun y hidle hw => ?_, ?_, step_rd_idle⟩
  · rw [step_wr_idle hidle, writeReg, startCommand_illegal hw]
    rfl
  · rintro ⟨-, hb, he⟩
    refine step_rejected he (Bool.eq_false_iff.mpr fun ha => ?_)
    obtain ⟨r, op, ha, ⟨rfl, -⟩ | rfl | rfl⟩ := accepts_busy hb ha <;> simp [RegName.offset] at ha

/-- A host's wait loop reads STATUS `n` times and leaves the rest (30_encoding.md R106). -/
theorem stepsFrom_wait (n k : Nat) (es : List Event) {s : State} (hr : s.rst = false)
    (he : s.events = wait n ++ es) :
    stepsFrom (n + k) s =
      stepsFrom k { s with events := es, reads := List.replicate n (statusWord s.status) ++ s.reads } := by
  induction n generalizing s with
  | zero =>
    obtain rfl : s.events = es := he
    simp
  | succ n ih =>
    have hpoll := step_rd_records (es := wait n ++ es) he (accepts_status hr _)
    rw [Nat.add_right_comm, stepsFrom_next hpoll, List.replicate_succ', List.append_assoc]
    exact ih (s := { s with events := wait n ++ es, reads := statusWord s.status :: s.reads }) hr rfl

/-- After its wait loop, with nothing else due, a BUSY engine completes (R254; log entry 7). -/
theorem stepsFrom_wait_completes (n : Nat) {s : State} (hr : s.rst = false) (hb : s.status.busy = true)
    (he : s.events = wait n) :
    stepsFrom (n + 1) s =
      exec s.lop { s with events := [], reads := List.replicate n (statusWord s.status) ++ s.reads } := by
  rw [stepsFrom_wait n 1 [] hr (by rw [he, List.append_nil]), stepsFrom_one, step_nil rfl]
  refine engineTurn_busy ?_ ?_ exec
  · exact hb
  · exact hr

/-- The word of a command decodes to it (30_encoding.md R93, R105). -/
theorem decode_encode (i : Instr) : decode (encode i) = .legal i := by
  cases i with
  | verify m p => revert m p; decide
  | _ => decide

/-- Settles O10: the CMD write, `n` polls that read BUSY alone, and the engine's turn. -/
theorem commandFromWriteToCompletion : Obligations.CommandFromWriteToCompletion := by
  unfold Obligations.CommandFromWriteToCompletion
  intro n i s hidle
  have hr : s.rst = false := hidle.1
  have hstart := step_wr_cmd_legal hidle (decode_encode i)
  have hpolled := stepsFrom_wait_completes n
    (s := { s with status := startedStatus s.status, lop := i, events := wait n }) hr rfl rfl
  rw [stepsFrom_next hstart, hpolled, statusWord_startedStatus]
  rfl

/-! ### What the engine writes, and what clears DONE -/

/-- Settles O35: way by way a command can end. -/
theorem engineWritesOnlyItsResults : Obligations.EngineWritesOnlyItsResults := by
  unfold Obligations.EngineWritesOnlyItsResults
  intro i s t h
  rcases exec_next_cases h with ⟨e, -, -, -, rfl⟩ | ⟨rfl, b, rfl⟩ | ⟨rfl, b, rfl⟩ | ⟨m, p, rfl, rfl⟩ |
    ⟨rfl, v, b, rfl⟩ | ⟨rfl, name, p, -, -, -, rfl⟩
  case inr.inr.inr.inr.inr => simp [framed]
  all_goals simp

/-- Every command that ends has DONE set (R211). -/
theorem exec_sets_done {i : Instr} {s t : State} (h : exec i s = .next t) : t.status.done = true := by
  rcases exec_next_cases h with ⟨e, -, -, -, rfl⟩ | ⟨-, b, rfl⟩ | ⟨-, b, rfl⟩ | ⟨m, p, -, rfl⟩ | ⟨-, v, b, rfl⟩ |
    ⟨-, name, p, -, -, -, rfl⟩ <;> rfl

/-- The register writes that clear DONE: of STATUS with bit 1 set (R26), and of a legal word to CMD (R30). -/
theorem writeReg_clears_done {s : State} {v : Word} {r : RegName} (hs : s.status.done = true)
    (ht : (writeReg s v r).status.done = false) :
    (r = .status ∧ v.getLsbD 1 = true) ∨ (r = .cmd ∧ ∃ i, decode v = .legal i) := by
  by_cases hc : r = .cmd
  · subst hc
    cases hw : decode v with
    | legal i => exact .inr ⟨rfl, i, rfl⟩
    | illegal y => rw [writeReg, startCommand_illegal hw] at ht; cases ht
  · by_cases hst : r = .status
    · subst hst
      exact .inl ⟨rfl, by simpa [writeReg, ackStatus, hs] using ht⟩
    · rw [writeReg_status hc hst, hs] at ht
      cases ht

/-- The host accesses that clear DONE (R214). -/
theorem hostAccess_clears_done {a : Access} {s t : State} (h : hostAccess params a s = .next t)
    (hs : s.status.done = true) (ht : t.status.done = false) :
    ∃ (off : Nat) (v : Word), s.rst = false ∧ a = ⟨.reg, .w32, off, .write v⟩ ∧
      (off = 0x008 ∧ v.getLsbD 1 = true ∨ off = 0x00C ∧ s.status.busy = false ∧ ∃ i, decode v = .legal i) := by
  obtain ⟨hacc, hcases⟩ := hostAccess_next h
  rcases hcases with ⟨r, hp, hoff, ⟨-, rfl⟩ | ⟨v, hop, rfl⟩⟩ | ⟨-, ⟨-, bytes, -, -, rfl⟩ | ⟨v, -, rfl⟩⟩
  · cases hs.symm.trans ht
  · obtain ⟨q, op, rfl⟩ := reg_access_of_accepts hp hacc
    obtain rfl : q = r := by simpa using hoff
    obtain rfl : op = .write v := hop
    obtain ⟨hr, -, -, hbusy⟩ := (accepts_iff _ _).mp hacc
    rcases writeReg_clears_done hs ht with ⟨rfl, hack⟩ | ⟨rfl, hlegal⟩
    · exact ⟨_, v, hr, rfl, .inl ⟨rfl, hack⟩⟩
    · have hb : s.status.busy = false := hbusy.resolve_right (by simp [allowedWhileBusy_reg_iff])
      exact ⟨_, v, hr, rfl, .inr ⟨rfl, hb, hlegal⟩⟩
  · cases hs.symm.trans ht
  · cases hs.symm.trans ht

/-- Settles O37: the engine sets DONE, and of the accesses only those two writes clear it. -/
theorem doneIsClearedOnlyBy : Obligations.DoneIsClearedOnlyBy := by
  unfold Obligations.DoneIsClearedOnlyBy
  intro s t h hs ht
  have hkept : ∀ es, t ≠ setEvents es s := by
    rintro es rfl
    cases hs.symm.trans ht
  rcases step_next h with ⟨es, -, ⟨-, -, hrun⟩ | ⟨-, hidle⟩⟩ | ⟨e, es, a, he, hea, hacc⟩ | ⟨es, he, -⟩ |
    ⟨es, he, ⟨hr, -⟩ | ⟨-, hidle⟩⟩
  · cases (exec_sets_done hrun).symm.trans ht
  · exact absurd hidle (hkept es)
  · obtain ⟨off, v, hr, rfl, hwrite⟩ := hostAccess_clears_done hacc hs ht
    exact ⟨e, es, he, .inr (.inr ⟨off, v, hr, hea, hwrite⟩)⟩
  · exact ⟨_, es, he, .inl rfl⟩
  · exact ⟨_, es, he, .inr (.inl ⟨rfl, hr⟩)⟩
  · exact absurd hidle (hkept es)

end Sys2Proof.Machine

namespace Sys2Proof.Machine

/-! ### What a command and a host access change of MEM (20_memory.md R64, R71) -/

/-- FRAME's message has one byte for each offset of its output region (42_framer.md R171, R172). -/
theorem length_frame_message (s : State) {name p : List Byte} (hn : (padName name).length = 12)
    (hp : p.length = s.ops.payLen.toNat) :
    (wireMessage s.ops.magic (padName name) s.ops.payLen (cksum params p) p).length = frameLen s.ops.payLen := by
  rw [length_wireMessage _ _ p hn (length_cksum _ _), hp, frameLen]

/-- A command that changes a byte of MEM is a FRAME without error whose output region holds that byte (R71). -/
theorem exec_changes_byte {i : Instr} {s t : State} {x : Nat} (h : exec i s = .next t)
    (hx : readByte t.mem x ≠ readByte s.mem x) :
    i = .frame ∧ t.status.err = .none ∧ InRegion x s.ops.dstAddr.toNat (frameLen s.ops.payLen) := by
  rcases exec_next_cases h with ⟨e, -, -, -, rfl⟩ | ⟨-, b, rfl⟩ | ⟨-, b, rfl⟩ | ⟨m, p, -, rfl⟩ | ⟨-, v, b, rfl⟩ |
    ⟨rfl, name, p, -, hn, hp, rfl⟩
  case inr.inr.inr.inr.inr =>
    refine ⟨rfl, rfl, ?_⟩
    rw [← length_frame_message s hn hp]
    by_contra hout
    exact hx (readByte_memWrite_out _ _ _ hout)
  all_goals exact absurd rfl hx

/-- A host access that changes a byte of MEM is an accepted write on the buffer port that covers that byte (R64). -/
theorem hostAccess_changes_byte {a : Access} {s t : State} {x : Nat} (h : hostAccess params a s = .next t)
    (hx : readByte t.mem x ≠ readByte s.mem x) :
    ∃ (w : Width) (off : Nat) (v : Word), a = ⟨.mem, w, off, .write v⟩ ∧ s.rst = false ∧ s.status.busy = false ∧
      off % w.bytes = 0 ∧ off + w.bytes ≤ 2 ^ params.memAw ∧ InRegion x off w.bytes := by
  obtain ⟨hacc, hcases⟩ := hostAccess_next h
  rcases hcases with ⟨r, -, -, ⟨-, rfl⟩ | ⟨v, -, rfl⟩⟩ | ⟨hp, ⟨-, b, -, -, rfl⟩ | ⟨v, hop, rfl⟩⟩
  · exact absurd rfl hx
  · exact absurd (by rw [writeReg_mem]) hx
  · exact absurd rfl hx
  · obtain ⟨port, w, off, op⟩ := a
    obtain rfl : port = .mem := hp
    obtain rfl : op = .write v := hop
    obtain ⟨hr, hshape, hin, hbusy⟩ := (accepts_iff _ _).mp hacc
    refine ⟨w, off, v, rfl, hr, hbusy.resolve_right (by simp [allowedWhileBusy]), ?_, ?_, ?_⟩
    · simpa [Access.shapeOk] using hshape
    · simpa [insideSpace, Params.memBytes_eq] using hin
    · by_contra hout
      exact hx (readByte_memWrite_out _ _ _ (by simpa [InRegion] using hout))

/-- Settles O54: the engine changes MEM by FRAME only, the host by a write only, and everything else keeps it but reset. -/
theorem memChangesOnlyBy : Obligations.MemChangesOnlyBy := by
  unfold Obligations.MemChangesOnlyBy
  intro s t x h hx
  have hkept : ∀ es, t ≠ setEvents es s := by
    rintro es rfl
    exact hx rfl
  rcases step_next h with ⟨es, he, ⟨hb, hr, hrun⟩ | ⟨-, hidle⟩⟩ | ⟨e, es, a, he, hea, hacc⟩ | ⟨es, he, -⟩ |
    ⟨es, he, ⟨hr, -⟩ | ⟨-, hidle⟩⟩
  · obtain ⟨hlop, herr, hin⟩ := exec_changes_byte hrun hx
    exact .inl ⟨hr, hb, hlop, he.imp And.left fun he => ⟨es, he⟩, herr, hin⟩
  · exact absurd hidle (hkept es)
  · obtain ⟨w, off, v, rfl, hr, hb, halign, hfit, hin⟩ := hostAccess_changes_byte hacc hx
    exact .inr ⟨e, es, he, .inr (.inr ⟨hr, hb, w, off, v, hea, halign, hfit, hin⟩)⟩
  · exact .inr ⟨_, es, he, .inl rfl⟩
  · exact .inr ⟨_, es, he, .inr (.inl ⟨rfl, hr⟩)⟩
  · exact absurd hidle (hkept es)

/-! ### The invariant, field by field: STATUS and OUT_LEN -/

/-- The invariant's two clauses about STATUS: BUSY stands alone, and VALID has no error beside it (10_state.md R30,
60_exceptions.md R211, R215). -/
def StatusOk (st : Status) : Prop :=
  (st.busy = true → st = { busy := true, done := false, valid := false, err := .none }) ∧
    (st.valid = true → st.err = .none)

theorem statusOk_completedStatus (e : ErrCode) (v : Bool) : StatusOk (completedStatus e v) :=
  ⟨fun h => absurd h (by simp), completedStatus_valid⟩

theorem statusOk_startedStatus (st : Status) : StatusOk (startedStatus st) :=
  ⟨fun _ => rfl, fun _ => rfl⟩

/-- Acknowledging clears DONE only, which is 0 already while BUSY (R26). -/
theorem StatusOk.ackStatus {st : Status} (h : StatusOk st) (v : Word) : StatusOk (ackStatus v st) := by
  refine ⟨fun hb => ?_, h.2⟩
  have hst := h.1 hb
  rw [ackStatus_of_not_done (by rw [hst]), hst]

theorem statusOk_startCommand (w : Word) (s : State) : StatusOk (startCommand w s).status := by
  cases hw : decode w with
  | legal i =>
    rw [startCommand_legal hw]
    exact statusOk_startedStatus _
  | illegal y =>
    rw [startCommand_illegal hw]
    exact statusOk_completedStatus _ _

/-- Of the register writes, those of CMD and STATUS reach the flags (R50). -/
theorem StatusOk.writeReg {s : State} (h : StatusOk s.status) (v : Word) (r : RegName) :
    StatusOk (writeReg s v r).status := by
  by_cases hcmd : r = .cmd
  · subst hcmd
    exact statusOk_startCommand v s
  · by_cases hst : r = .status
    · subst hst
      exact h.ackStatus v
    · rwa [writeReg_status hcmd hst]

/-- Every command ends by completing (R211). -/
theorem exec_statusOk {i : Instr} {s t : State} (h : exec i s = .next t) : StatusOk t.status := by
  rcases exec_next_cases h with ⟨e, -, -, -, rfl⟩ | ⟨-, b, rfl⟩ | ⟨-, b, rfl⟩ | ⟨m, p, -, rfl⟩ | ⟨-, v, b, rfl⟩ |
    ⟨-, name, p, -, -, -, rfl⟩ <;> exact statusOk_completedStatus _ _

/-- OUT_LEN is 0 or the length of a message that fits in MEM (10_state.md R38, 42_framer.md R177). -/
def OutLenOk (v : Word) : Prop := v = 0 ∨ (24 ≤ v.toNat ∧ v.toNat ≤ params.memBytes)

/-- The length of a message that fits in MEM fits a register (R177). -/
theorem outLenOk_frameLen {a : Nat} {payLen : Word} (h : InRange a (frameLen payLen)) :
    OutLenOk (BitVec.ofNat 32 (frameLen payLen)) := by
  have hmin : 24 ≤ frameLen payLen := Nat.le_add_right _ _
  have hmax : frameLen payLen ≤ params.memBytes := by
    rw [Params.memBytes_eq]
    exact h.elim (fun h0 => by omega) (fun hfit => by omega)
  have hmem := params.memBytes_le
  have hreg : (BitVec.ofNat 32 (frameLen payLen)).toNat = frameLen payLen := by
    rw [BitVec.toNat_ofNat]
    exact Nat.mod_eq_of_lt (by omega)
  exact .inr (by rw [hreg]; exact ⟨hmin, hmax⟩)

/-- FRAME sets OUT_LEN to the length it has checked, and no other command reaches it (R38). -/
theorem exec_keeps_outLenOk {i : Instr} {s t : State} (hs : OutLenOk s.outLen) (h : exec i s = .next t) :
    OutLenOk t.outLen := by
  rcases exec_next_cases h with ⟨e, -, -, -, rfl⟩ | ⟨-, b, rfl⟩ | ⟨-, b, rfl⟩ | ⟨m, p, -, rfl⟩ | ⟨-, v, b, rfl⟩ |
    ⟨-, name, p, hd, -, -, rfl⟩
  case inr.inr.inr.inr.inr => exact outLenOk_frameLen hd
  all_goals exact hs

/-! ### The invariant, agent by agent -/

/-- Out of reset the invariant is its clauses about MEM, STATUS and OUT_LEN. -/
theorem blockInv_of_running {s : State} (hr : s.rst = false) (hm : memWf params.memBytes s.mem = true)
    (hst : StatusOk s.status) (ho : OutLenOk s.outLen) : BlockInv s where
  mem := hm
  busy := hst.1
  valid := hst.2
  outLen := ho
  rst h := by cases hr.symm.trans h

theorem statusOk_of_blockInv {s : State} (h : BlockInv s) : StatusOk s.status := ⟨h.busy, h.valid⟩

/-- The invariant says nothing of what is due to happen. -/
theorem blockInv_setEvents {s : State} (h : BlockInv s) (es : List Event) : BlockInv (setEvents es s) where
  mem := h.mem
  busy := h.busy
  valid := h.valid
  outLen := h.outLen
  rst := h.rst

/-- Reset establishes the invariant, whatever the level of RST (R240). -/
theorem blockInv_blockReset (level : Bool) (s : State) : BlockInv (blockReset level s) where
  mem := blockReset_memWf level s
  busy := by simp
  valid := by simp
  outLen := .inl rfl
  rst _ := ⟨rfl, rfl, rfl, rfl, rfl, rfl, readByte_nil⟩

/-- A command that completes out of reset keeps the invariant. -/
theorem exec_keeps_blockInv {i : Instr} {s t : State} (hs : BlockInv s) (hr : s.rst = false)
    (h : exec i s = .next t) : BlockInv t := by
  obtain ⟨-, -, -, hrst, -⟩ := engineWritesOnlyItsResults i s t h
  exact blockInv_of_running (hrst.trans hr) (exec_keeps_memWf hs.mem h) (exec_statusOk h)
    (exec_keeps_outLenOk hs.outLen h)

/-- What no host access touches: the level of RST, which is low for it to be accepted, and OUT_LEN (R38, R241). -/
theorem hostAccess_rst_outLen {a : Access} {s t : State} (h : hostAccess params a s = .next t) :
    t.rst = false ∧ t.outLen = s.outLen := by
  obtain ⟨hacc, hcases⟩ := hostAccess_next h
  obtain ⟨hr, -, -, -⟩ := (accepts_iff _ _).mp hacc
  rcases hcases with ⟨r, -, -, ⟨-, rfl⟩ | ⟨v, -, rfl⟩⟩ | ⟨-, ⟨-, b, -, -, rfl⟩ | ⟨v, -, rfl⟩⟩ <;> simp [hr]

/-- A host access reaches the flags by a register write only (R50). -/
theorem hostAccess_keeps_statusOk {a : Access} {s t : State} (hs : StatusOk s.status)
    (h : hostAccess params a s = .next t) : StatusOk t.status := by
  obtain ⟨-, hcases⟩ := hostAccess_next h
  rcases hcases with ⟨r, -, -, ⟨-, rfl⟩ | ⟨v, -, rfl⟩⟩ | ⟨-, ⟨-, b, -, -, rfl⟩ | ⟨v, -, rfl⟩⟩
  · exact hs
  · exact hs.writeReg v r
  · exact hs
  · exact hs

/-- A host access keeps the invariant. -/
theorem hostAccess_keeps_blockInv {a : Access} {s t : State} (hs : BlockInv s)
    (h : hostAccess params a s = .next t) : BlockInv t := by
  obtain ⟨hr, ho⟩ := hostAccess_rst_outLen h
  exact blockInv_of_running hr (hostAccess_keeps_memWf hs.mem h)
    (hostAccess_keeps_statusOk (statusOk_of_blockInv hs) h) (ho ▸ hs.outLen)

/-- Settles O58: agent by agent, by what a step can do. -/
theorem stepKeepsInvariant : Obligations.StepKeepsInvariant := by
  unfold Obligations.StepKeepsInvariant
  intro s t hs h
  rcases step_next h with ⟨es, -, ⟨-, hr, hrun⟩ | ⟨-, rfl⟩⟩ | ⟨e, es, a, -, -, hacc⟩ | ⟨es, -, rfl⟩ |
    ⟨es, -, ⟨-, rfl⟩ | ⟨-, rfl⟩⟩
  · exact exec_keeps_blockInv (blockInv_setEvents hs es) hr hrun
  · exact blockInv_setEvents hs es
  · exact hostAccess_keeps_blockInv (blockInv_setEvents hs es) hacc
  · exact blockInv_blockReset true _
  · exact blockInv_blockReset false _
  · exact blockInv_setEvents hs es

/-! ### Regions and windows (R61, R69, R70) -/

/-- Two regions share a byte exactly when neither is empty and neither ends before the other begins: the byte is the later
of the two beginnings (R70). -/
theorem exists_shared_byte_iff (a n b m : Nat) :
    (∃ x, InRegion x a n ∧ InRegion x b m) ↔ 0 < n ∧ 0 < m ∧ a < b + m ∧ b < a + n := by
  unfold InRegion
  constructor
  · rintro ⟨x, hxa, hxb⟩
    omega
  · intro h
    exact ⟨max a b, by omega, by omega⟩

/-- Settles O50: `overlap` is the inequality, and the inequality says that a byte is shared. -/
theorem overlapIsASharedByte : Obligations.OverlapIsASharedByte := by
  unfold Obligations.OverlapIsASharedByte
  intro a n b m
  exact ⟨overlap_iff a n b m, (overlap_iff a n b m).trans (exists_shared_byte_iff a n b m).symm⟩

/-- Settles O49: the range of MEM_AW, and what `regionOk` says. -/
theorem regionCheck : Obligations.RegionCheck := by
  unfold Obligations.RegionCheck
  obtain ⟨hlo, hhi⟩ := params.memAw_range
  exact ⟨hlo, hhi, regionOk_iff⟩

/-- An address inside a window has its offset from the window's base. -/
theorem windowOffset_of_inRegion {base size addr : Nat} (h : InRegion addr base size) :
    windowOffset base size addr = some (addr - base) := if_pos h

/-- An address outside a window has no offset in it. -/
theorem windowOffset_of_not_inRegion {base size addr : Nat} (h : ¬ InRegion addr base size) :
    windowOffset base size addr = none := if_neg h

/-- Settles O47: the one window that holds the address gives its offset, the other none. -/
theorem windowsReachTheirPorts : Obligations.WindowsReachTheirPorts := by
  unfold Obligations.WindowsReachTheirPorts
  refine ⟨fun s => rfl, fun c s addr w op es he => ?_⟩
  have hplatform : agentStep c exec s = platformAccess c addr w op (setEvents es s) := by
    simp [agentStep, he, runEvent]
  rw [hplatform, platformAccess, c.memBytes_eq]
  constructor
  · intro hreg hmem
    rw [windowOffset_of_inRegion hreg, windowOffset_of_not_inRegion hmem]
    rfl
  · intro hmem hreg
    rw [windowOffset_of_inRegion hmem, windowOffset_of_not_inRegion hreg]
    rfl

/-! ### Host accesses to MEM (R62, R64) -/

/-- The little-endian sum: byte `i` weighs `2^(8i)` (00_scope.md R11). -/
theorem leNat_eq_sum (b : List Byte) :
    leNat b = ((List.range b.length).map (fun i => (b.getD i 0).toNat * 2 ^ (8 * i))).sum := by
  induction b with
  | nil => rfl
  | cons d ds ih =>
    have hweight : ∀ i, (ds.getD i 0).toNat * 2 ^ (8 * (i + 1)) = 256 * ((ds.getD i 0).toNat * 2 ^ (8 * i)) :=
      fun i => by ring
    rw [leNat, ih, List.length_cons, List.range_succ_eq_map, List.map_cons, List.map_map, List.sum_cons,
      ← List.sum_map_mul_left]
    simp only [Function.comp_def, Nat.succ_eq_add_one, List.getD_cons_succ, List.getD_cons_zero, hweight, Nat.mul_zero,
      Nat.pow_zero, Nat.mul_one]

/-- A step at an aligned host write inside MEM while IDLE. -/
theorem step_mw_idle {s : State} {w : Width} {a : Nat} {v : Word} {es : List Event} (h : IdleNext s (mw w a v) es)
    (ha : a % w.bytes = 0) (hm : a + w.bytes ≤ 2 ^ params.memAw) :
    step s = .next { s with mem := memWrite s.mem a (leBytes w.bytes v), events := es } := by
  obtain ⟨hr, hb, he⟩ := h
  rw [step_access he, hostAccess_mem (by simpa using accepts_mem_idle hr hb (.write v) ha hm)]
  rfl

/-- A step at an aligned host read inside MEM while IDLE is the read of those bytes. -/
theorem step_mr_idle {s : State} {w : Width} {a : Nat} {es : List Event} (h : IdleNext s (mr w a) es)
    (ha : a % w.bytes = 0) (hm : a + w.bytes ≤ 2 ^ params.memAw) :
    step s = bufAccess a w.bytes .read (setEvents es s) := by
  obtain ⟨hr, hb, he⟩ := h
  rw [step_access he, hostAccess_mem (by simpa using accepts_mem_idle hr hb .read ha hm)]

/-- A host read of written bytes records their little-endian number and takes the event, and does nothing else. -/
theorem step_mr_records {s : State} {w : Width} {a : Nat} {es : List Event} {b : List Byte}
    (h : IdleNext s (mr w a) es) (ha : a % w.bytes = 0) (hm : a + w.bytes ≤ 2 ^ params.memAw)
    (hl : b.length = w.bytes) (hb : HoldsBytes s.mem a b) :
    step s = .next { s with events := es, reads := le32 b :: s.reads } := by
  have hread : memRead (setEvents es s).mem a w.bytes = some b := (memRead_eq_some_iff _ _ _ _).mpr ⟨hl, hb⟩
  rw [step_mr_idle h ha hm, bufAccess, hread]
  rfl

theorem Width.bytes_le (w : Width) : w.bytes ≤ 4 := by
  cases w <;> decide

/-- Settles O51: the bytes stored are `leBytes`'s, and `memWrite` leaves every byte outside its region. -/
theorem hostBufferWrite : Obligations.HostBufferWrite := by
  unfold Obligations.HostBufferWrite
  intro s w a v es hidle ha hm
  refine ⟨_, step_mw_idle hidle ha hm, fun i hi => ?_, fun x hx => ?_, rfl⟩
  · rw [readByte_memWrite_in _ _ _ (by simpa using hi), getElem?_leBytes, if_pos hi, extractLsb'_byte]
  · exact readByte_memWrite_out _ _ _ (by simpa [InRegion] using hx)

/-- Settles O52: the value recorded is `le32` of the bytes, which is their sum. -/
theorem hostBufferRead : Obligations.HostBufferRead := by
  unfold Obligations.HostBufferRead
  intro s w a es hidle ha hm
  refine ⟨fun b hl hb => ⟨le32 b, step_mr_records hidle ha hm hl hb, ?_⟩, fun hunwritten => ?_⟩
  · rw [toNat_le32 (hl.trans_le w.bytes_le), leNat_eq_sum, hl]
  · have hread : memRead (setEvents es s).mem a w.bytes = none := (memRead_eq_none_iff _ _ _).mpr hunwritten
    rw [step_mr_idle hidle ha hm, bufAccess, hread]

/-! ### Accesses of different widths (R68) -/

/-- Where memory holds a byte string it holds each slice of it. -/
theorem holdsBytes_slice {m : Memory} {a i j : Nat} {b : List Byte} (h : HoldsBytes m a b) :
    HoldsBytes m (a + i) (slice b i j) := by
  intro k hk
  simp only [slice, List.length_take, List.length_drop, Nat.lt_min] at hk
  rw [Nat.add_assoc, h (i + k) (by omega), slice, List.getElem?_take_of_lt hk.1, List.getElem?_drop]

/-- One byte read as a word is zero-extended (R62). -/
theorem le32_singleton (b : Byte) : le32 [b] = b.setWidth 32 := by
  apply BitVec.eq_of_toNat_eq
  rw [toNat_le32 (by simp), BitVec.toNat_setWidth_of_le (by decide)]
  simp [leNat]

/-- PARSE without error has read 24 bytes inside MEM, which give the header (40_header_parse.md R120). -/
theorem exec_parse_header {s u : State} (h : exec .parse s = .next u) (herr : u.status.err = .none) :
    ∃ b, b.length = 24 ∧ HoldsBytes s.mem s.ops.srcAddr.toNat b ∧ s.ops.srcAddr.toNat + 24 ≤ 2 ^ params.memAw ∧
      u.hdr = headerOf b := by
  rw [exec] at h
  rcases execParse_cases s with ⟨-, he⟩ | ⟨-, -, he⟩ | ⟨hin, b, hl, hb, he⟩ <;> cases he.symm.trans h
  · cases herr
  · exact ⟨b, hl, hb, hin.resolve_left (by decide), rfl⟩

/-- A host reads as one word any four aligned bytes of a header in MEM, whatever wrote them. -/
theorem step_mr_header_word {s : State} {es : List Event} {a k : Nat} {b : List Byte} (hl : b.length = 24)
    (hb : HoldsBytes s.mem a b) (hfit : a + 24 ≤ 2 ^ params.memAw) (ha : (a + k) % 4 = 0) (hk : k + 4 ≤ 24)
    (h : IdleNext s (mr .w32 (a + k)) es) :
    step s = .next { s with events := es, reads := le32 (slice b k (k + 4)) :: s.reads } := by
  refine step_mr_records h ha ?_ ?_ (holdsBytes_slice hb)
  · simp only [Width.bytes]
    omega
  · simp only [slice, List.length_take, List.length_drop, Width.bytes]
    omega

/-- A byte of a word just written, read alone (R68). -/
theorem stepsFrom_mw_mr {s : State} {a i : Nat} {v : Word} {es : List Event}
    (h : IdleNext s (mw .w32 a v) (mr .w8 (a + i) :: es)) (ha : a % 4 = 0) (hm : a + 4 ≤ 2 ^ params.memAw)
    (hi : i < 4) :
    stepsFrom 2 s = .next
      { s with
        mem := memWrite s.mem a (leBytes 4 v)
        events := es
        reads := (v.extractLsb' (8 * i) 8).setWidth 32 :: s.reads } := by
  have hwrite := step_mw_idle h ha hm
  obtain ⟨hr, hb, -⟩ := h
  have hbyte : HoldsBytes (memWrite s.mem a (leBytes 4 v)) (a + i) [v.extractLsb' (8 * i) 8] := by
    intro k hk
    obtain rfl : k = 0 := by simpa using hk
    rw [Nat.add_zero, readByte_memWrite_in _ _ _ (by simpa using hi), getElem?_leBytes, if_pos hi, extractLsb'_byte]
    rfl
  rw [stepsFrom_next hwrite, stepsFrom_one, ← le32_singleton]
  refine step_mr_records ⟨hr, hb, rfl⟩ (Nat.mod_one _) ?_ rfl hbyte
  simp only [Width.bytes]
  omega

/-- Settles O53: the byte is the one the word was stored as, and PARSE's two fields are words of the same 24 bytes. -/
theorem mixedWidthAccesses : Obligations.MixedWidthAccesses := by
  unfold Obligations.MixedWidthAccesses
  refine ⟨fun s a i v es hidle ha hm hi => ⟨_, stepsFrom_mw_mr hidle ha hm hi, rfl⟩, ?_⟩
  intro s u es hparse herr ha
  obtain ⟨b, hl, hb, hfit, hhdr⟩ := exec_parse_header hparse herr
  rw [hhdr]
  exact ⟨step_mr_header_word hl hb hfit (by omega) (by decide),
    step_mr_header_word hl hb hfit (by omega) (by decide)⟩

end Sys2Proof.Machine

namespace Sys2Proof.Machine

/-! ### The command word (30_encoding.md) -/

/-- The word with these three fields and every reserved bit 0 (R90). -/
def wordOfFields (op : BitVec 4) (m p : Bool) : Word :=
  op.setWidth 32 ||| ((if m then 1#32 else 0#32) <<< 8) ||| ((if p then 1#32 else 0#32) <<< 9)

/-- One presence bit, before it is shifted to its place, has bit 0 only (R105). -/
theorem getElem_presenceBit (b : Bool) {k : Nat} (hk : k < 32) :
    (if b then 1#32 else 0#32)[k] = (b && decide (k = 0)) := by
  cases b <;> simp [BitVec.getElem_one]

/-- A word without reserved bits is its three fields (R90). -/
theorem eq_wordOfFields {w : Word} (h : w &&& 0xFFFFFCF0#32 = 0#32) :
    w = wordOfFields (opField w) (mField w) (pField w) := by
  have hsplit : w = wordOfFields (opField w) (mField w) (pField w) ||| (w &&& 0xFFFFFCF0#32) := by
    apply BitVec.eq_of_getLsbD_eq
    intro k hk
    interval_cases k <;> simp [wordOfFields, opField, mField, pField, getElem_presenceBit]
  rwa [h, BitVec.or_zero] at hsplit

/-- VERIFY's word has OP = 3 and its two presence bits (R91, R92). -/
theorem encode_verify (m p : Bool) : encode (.verify m p) = wordOfFields 3 m p := rfl

/-- The words R93 decodes as VERIFY are those of VERIFY with their own M and P (R105). -/
theorem eq_encode_verify {w : Word} (h : w &&& 0xFFFFFCFF#32 = 0x00000003#32) :
    w = encode (.verify (mField w) (pField w)) := by
  have hres : w &&& 0xFFFFFCF0#32 = 0#32 := by
    rw [show 0xFFFFFCF0#32 = 0xFFFFFCFF#32 &&& 0xFFFFFCF0#32 by decide, ← BitVec.and_assoc, h]
    decide
  have hop : opField w = 3 := by
    have hkept : opField (w &&& 0xFFFFFCFF#32) = opField w &&& BitVec.allOnes 4 := BitVec.extractLsb'_and
    rw [← BitVec.and_allOnes (x := opField w), ← hkept, h]
    decide
  rw [encode_verify, ← hop]
  exact eq_wordOfFields hres

/-- A word that decodes to a command is that command's word (R93, R105). -/
theorem eq_encode_of_decode {w : Word} {i : Instr} (h : decode w = .legal i) : w = encode i := by
  unfold decode at h
  split_ifs at h with hparse hcksum hverify hframe <;> obtain rfl := Decoded.legal.inj h
  · exact hparse
  · exact hcksum
  · exact eq_encode_verify hverify
  · exact hframe

/-- Settles O1: one direction branch by branch of `decode`, the other command by command. -/
theorem decodeLegalIffEncode : Obligations.DecodeLegalIffEncode := by
  unfold Obligations.DecodeLegalIffEncode
  refine fun w i => ⟨eq_encode_of_decode, ?_⟩
  rintro rfl
  exact decode_encode i

/-- A word is illegal exactly when it is no command's word. -/
theorem decode_illegal_iff (w : Word) : (∃ y, decode w = .illegal y) ↔ ¬ ∃ i, w = encode i := by
  constructor
  · rintro ⟨y, hy⟩ ⟨i, rfl⟩
    cases (decode_encode i).symm.trans hy
  · intro hno
    cases hw : decode w with
    | legal i => exact absurd ⟨i, eq_encode_of_decode hw⟩ hno
    | illegal y => exact ⟨y, rfl⟩

/-- The commands' words are R93's seven. -/
theorem exists_eq_encode_iff_mem (w : Word) : (∃ i, w = encode i) ↔
    w ∈ [0x00000001#32, 0x00000002#32, 0x00000003#32, 0x00000103#32, 0x00000203#32, 0x00000303#32, 0x00000004#32] := by
  constructor
  · rintro ⟨i, rfl⟩
    cases i with
    | verify m p => revert m p; decide
    | _ => decide
  · intro hmem
    simp only [List.mem_cons, List.not_mem_nil, or_false] at hmem
    rcases hmem with rfl | rfl | rfl | rfl | rfl | rfl | rfl
    · exact ⟨.parse, rfl⟩
    · exact ⟨.cksum, rfl⟩
    · exact ⟨.verify false false, rfl⟩
    · exact ⟨.verify true false, rfl⟩
    · exact ⟨.verify false true, rfl⟩
    · exact ⟨.verify true true, rfl⟩
    · exact ⟨.frame, rfl⟩

/-- Settles O2: each of the seven is a command's word, and the illegal words are the others. -/
theorem exactlySevenLegalWords : Obligations.ExactlySevenLegalWords := by
  unfold Obligations.ExactlySevenLegalWords
  refine ⟨decode_encode .parse, decode_encode .cksum, decode_encode (.verify false false),
    decode_encode (.verify true false), decode_encode (.verify false true), decode_encode (.verify true true),
    decode_encode .frame, fun w => ?_⟩
  rw [decode_illegal_iff, exists_eq_encode_iff_mem]

/-- OP is the word's low hexadecimal digit (R90). -/
theorem toNat_opField (w : Word) : (opField w).toNat = w.toNat % 16 := by
  simp [opField]

/-- M or P is set exactly when one of bits 8 and 9 is (R90). -/
theorem presenceBits_ne_zero_iff (w : Word) :
    w &&& 0x00000300#32 ≠ 0#32 ↔ mField w = true ∨ pField w = true := by
  constructor
  · contrapose!
    rintro ⟨hm, hp⟩
    have hm : w[8] = false := Bool.eq_false_iff.mpr hm
    have hp : w[9] = false := Bool.eq_false_iff.mpr hp
    apply BitVec.eq_of_getLsbD_eq
    intro k hk
    interval_cases k <;> simp [hm, hp]
  · intro hset hzero
    have hbit (k : Nat) : (w &&& 0x00000300#32).getLsbD k = false := by simp [hzero]
    have hm : mField w = false := by simpa [mField] using hbit 8
    have hp : pField w = false := by simpa [pField] using hbit 9
    simp [hm, hp] at hset

/-- What makes a word a command's, field by field: none of the three classes of R94. -/
theorem exists_eq_encode_iff_fields (w : Word) : (∃ i, w = encode i) ↔
    (1 ≤ (opField w).toNat ∧ (opField w).toNat ≤ 4) ∧ w &&& 0xFFFFFCF0#32 = 0#32 ∧
      (mField w = true ∨ pField w = true → opField w = 3) := by
  constructor
  · rintro ⟨i, rfl⟩
    have hfields : Laws.Encoding.Statement i := by
      cases i with
      | parse => exact Laws.Encoding.parse
      | cksum => exact Laws.Encoding.cksum
      | verify m p => exact Laws.Encoding.verify m p
      | frame => exact Laws.Encoding.frame
    obtain ⟨-, hlo, hhi, hres, hmp⟩ := hfields
    exact ⟨⟨hlo, hhi⟩, hres, hmp⟩
  · rintro ⟨⟨hlo, hhi⟩, hres, hmp⟩
    have hw := eq_wordOfFields hres
    by_cases hpresent : mField w = true ∨ pField w = true
    · exact ⟨.verify (mField w) (pField w), hw.trans (by rw [hmp hpresent, encode_verify])⟩
    · obtain ⟨hm, hp⟩ : mField w = false ∧ pField w = false := by simpa using hpresent
      have hop : opField w = 1 ∨ opField w = 2 ∨ opField w = 3 ∨ opField w = 4 := by bv_omega
      rw [hm, hp] at hw
      rcases hop with hop | hop | hop | hop <;> rw [hop] at hw
      · exact ⟨.parse, hw⟩
      · exact ⟨.cksum, hw⟩
      · exact ⟨.verify false false, hw⟩
      · exact ⟨.frame, hw⟩

/-- Settles O3: a word is illegal when one of its fields is no command's. -/
theorem illegalWordClasses : Obligations.IllegalWordClasses := by
  unfold Obligations.IllegalWordClasses
  intro w
  have hop : opField w = 3 ↔ w.toNat % 16 = 3 := by
    rw [← toNat_opField, ← BitVec.toNat_inj]
    rfl
  have hrange : ¬ (1 ≤ w.toNat % 16 ∧ w.toNat % 16 ≤ 4) ↔ w.toNat % 16 = 0 ∨ 5 ≤ w.toNat % 16 := by omega
  rw [decode_illegal_iff, exists_eq_encode_iff_fields, hop, toNat_opField, presenceBits_ne_zero_iff, not_and_or,
    hrange, not_and_or, or_assoc, Classical.not_imp, and_comm (b := ¬ _)]

/-- Read as a 32-bit table word, a command's word gives the command (R96). -/
theorem decodeTableWord_encode (i : Instr) : decodeTableWord 32 (encode i).toNat = some i := by
  simp [decodeTableWord, decode_encode, (encode i).isLt]

/-- Read as a table word, an illegal word gives no command (R96). -/
theorem decodeTableWord_eq_none {n : Nat} (h : ∃ y, decode (BitVec.ofNat 32 n) = .illegal y) :
    decodeTableWord 32 n = none := by
  obtain ⟨y, hy⟩ := h
  simp [decodeTableWord, hy]

/-- Settles O4: five words are those of commands, and each of the others is in a class of R94. -/
theorem specWordsDecode : Obligations.SpecWordsDecode := by
  unfold Obligations.SpecWordsDecode
  refine ⟨decodeTableWord_encode .parse, decodeTableWord_encode .cksum, decodeTableWord_encode (.verify true false),
    decodeTableWord_encode (.verify false true), decodeTableWord_encode .frame, ?_, ?_, ?_, ?_, ?_⟩
  all_goals exact decodeTableWord_eq_none ((illegalWordClasses _).mpr (by decide))

end Sys2Proof.Machine

namespace Sys2Proof.Machine

/-! ### PARSE (40_header_parse.md) -/

/-- Memory holds at most one byte string of a given length at an address: the one MemRead answers (R71). -/
theorem holdsBytes_unique {m : Memory} {a : Nat} {b c : List Byte} (hl : b.length = c.length) (hb : HoldsBytes m a b)
    (hc : HoldsBytes m a c) : b = c := by
  have hreadB : memRead m a c.length = some b := (memRead_eq_some_iff _ _ _ _).mpr ⟨hl, hb⟩
  have hreadC : memRead m a c.length = some c := (memRead_eq_some_iff _ _ _ _).mpr ⟨rfl, hc⟩
  exact Option.some.inj (hreadB.symm.trans hreadC)

/-- A region whose bytes memory holds has no unwritten byte (R47, R71). -/
theorem not_hasUnwritten_of_holdsBytes {m : Memory} {a n : Nat} {b : List Byte} (hl : b.length = n)
    (hb : HoldsBytes m a b) : ¬ HasUnwritten m a n := by
  rw [← memRead_eq_none_iff, (memRead_eq_some_iff _ _ _ _).mpr ⟨hl, hb⟩]
  exact Option.some_ne_none b

/-- Settles O11: PARSE's three outcomes, each under the hypothesis of its own clause and contrary to the other two's. -/
theorem parseMeaning : Obligations.ParseMeaning := by
  unfold Obligations.ParseMeaning
  intro s
  rcases execParse_cases s with ⟨hout, he⟩ | ⟨hin, hun, he⟩ | ⟨hin, b, hl, hb, he⟩
  · exact ⟨fun _ hin => absurd hin hout, fun _ => he, fun hin => absurd hin hout⟩
  · exact ⟨fun _ _ hl hb => absurd hun (not_hasUnwritten_of_holdsBytes hl hb), absurd hin, fun _ _ => he⟩
  · refine ⟨fun h _ hl' hb' => ?_, absurd hin, fun _ hun => absurd hun (not_hasUnwritten_of_holdsBytes hl hb)⟩
    obtain rfl : h = b := holdsBytes_unique (hl'.trans hl.symm) hb' hb
    exact he

/-- Settles O12: both ways PARSE answers a next state complete it, and one sets the header group. -/
theorem parseLeavesTheRest : Obligations.ParseLeavesTheRest := by
  unfold Obligations.ParseLeavesTheRest
  intro s t h
  rw [exec] at h
  rcases execParse_cases s with ⟨-, he⟩ | ⟨-, -, he⟩ | ⟨-, b, -, -, he⟩ <;> cases he.symm.trans h
  case inl => rfl
  case inr.inr => rfl

end Sys2Proof.Machine

namespace Sys2Proof.Machine

/-! ### CKSUM and VERIFY (41_integrity.md) -/

/-- From the three cases of a command that reads one region to what it does in each of them: a region is out of range,
unwritten or held, never two of these, and the bytes it holds are unique (R69, R71). -/
theorem outcome_of_each_region {m : Memory} {a n : Nat} {range uninit : Prop} {result : List Byte → Prop}
    (h : (¬ InRange a n ∧ range) ∨ (InRange a n ∧ HasUnwritten m a n ∧ uninit) ∨
      (InRange a n ∧ ∃ b, b.length = n ∧ HoldsBytes m a b ∧ result b)) :
    (∀ b, InRange a n → b.length = n → HoldsBytes m a b → result b) ∧ (¬ InRange a n → range) ∧
      (InRange a n → HasUnwritten m a n → uninit) := by
  rcases h with ⟨hout, he⟩ | ⟨hin, hun, he⟩ | ⟨hin, b, hl, hb, he⟩
  · exact ⟨fun _ hin => absurd hin hout, fun _ => he, fun hin => absurd hin hout⟩
  · exact ⟨fun _ _ hl hb => absurd hun (not_hasUnwritten_of_holdsBytes hl hb), absurd hin, fun _ _ => he⟩
  · refine ⟨fun c _ hl' hc => ?_, absurd hin, fun _ hun => absurd hun (not_hasUnwritten_of_holdsBytes hl hb)⟩
    obtain rfl : c = b := holdsBytes_unique (hl'.trans hl.symm) hc hb
    exact he

/-- CKSUM over a payload that MEM holds (R143). -/
theorem exec_cksum_of_holdsBytes {s : State} {p : List Byte} (hin : InRange s.ops.payAddr.toNat s.ops.payLen.toNat)
    (hl : p.length = s.ops.payLen.toNat) (hb : HoldsBytes s.mem s.ops.payAddr.toNat p) :
    exec .cksum s = .next (complete .none false (setCksumOut (cksumReg params p) s)) :=
  (outcome_of_each_region (execCksum_cases s)).1 p hin hl hb

/-- VERIFY of a message and payload that are present, over a payload that MEM holds (R144). -/
theorem exec_verify_of_holdsBytes {s : State} {p : List Byte} (hin : InRange s.ops.payAddr.toNat s.hdr.dataLen.toNat)
    (hl : p.length = s.hdr.dataLen.toNat) (hb : HoldsBytes s.mem s.ops.payAddr.toNat p) :
    exec (.verify true true) s =
      .next (complete .none (cksumReg params p == s.hdr.checksum) (setCksumOut (cksumReg params p) s)) :=
  (outcome_of_each_region (execVerify_cases s)).1 p hin hl hb

/-- VERIFY of an absent message or payload (R144), the absence as the statements spell it. -/
theorem exec_verify_absent {m p : Bool} (h : m = false ∨ p = false) (s : State) :
    exec (.verify m p) s = .next (complete .none false s) :=
  execVerify_absent (Bool.and_eq_false_iff.mpr h) s

/-- Four bytes are known by the word they make (R11). -/
theorem le32_inj {s t : List Byte} (hs : s.length = 4) (ht : t.length = 4) : le32 s = le32 t ↔ s = t := by
  refine ⟨fun h => ?_, congrArg le32⟩
  rw [← unle32_le32 hs, h, unle32_le32 ht]

/-- Settles O14: CKSUM's three outcomes, one for each kind of region. -/
theorem cksumMeaning : Obligations.CksumMeaning := by
  unfold Obligations.CksumMeaning
  intro s
  exact outcome_of_each_region (execCksum_cases s)

/-- Settles O17: an absent message or payload completes at once; else VERIFY's three outcomes, one for each kind of region. -/
theorem verifyMeaning : Obligations.VerifyMeaning := by
  unfold Obligations.VerifyMeaning
  intro s
  exact ⟨fun _ _ habsent => exec_verify_absent habsent s, outcome_of_each_region (execVerify_cases s)⟩

/-- Settles O20: VERIFY compares the two words, and words made of four bytes are equal only when the bytes are. -/
theorem verifyComparesFourBytes : Obligations.VerifyComparesFourBytes := by
  unfold Obligations.VerifyComparesFourBytes
  intro s b sum hin hl hb hsum hchecksum
  have hvalid : (completedStatus .none (cksumReg params b == s.hdr.checksum)).valid = true ↔
      le32 (cksum params b) = s.hdr.checksum := by
    rw [completedStatus_valid_none]
    exact beq_iff_eq
  have hbytes : le32 (cksum params b) = s.hdr.checksum ↔ cksum params b = sum := by
    rw [hchecksum, le32_inj (length_cksum params b) hsum]
  exact ⟨_, exec_verify_of_holdsBytes hin hl hb, hvalid.trans hbytes, hvalid⟩

/-- Settles O22: both commands leave the checksum of the same bytes, VERIFY then finds it in HDR_CHECKSUM, and neither has
changed what it reads. -/
theorem checksumCommandsAgree : Obligations.ChecksumCommandsAgree := by
  unfold Obligations.ChecksumCommandsAgree
  intro s b hin hb hpay hdata
  have hinPay : InRange s.ops.payAddr.toNat s.ops.payLen.toNat := hpay ▸ hin
  have hinData : InRange s.ops.payAddr.toNat s.hdr.dataLen.toNat := hdata ▸ hin
  refine ⟨_, _, _, exec_cksum_of_holdsBytes hinPay hpay.symm hb, exec_verify_of_holdsBytes hinData hdata.symm hb, rfl,
    exec_verify_of_holdsBytes hinData hdata.symm hb, ?_, ?_, ?_⟩
  · simp
  · exact exec_cksum_of_holdsBytes hinPay hpay.symm hb
  · exact exec_verify_of_holdsBytes hinData hdata.symm hb

/-- Settles O13: a digest has 32 bytes, so its first four are those at its indices 0 to 3. -/
theorem checksumIsFirstFourBytes : Obligations.ChecksumIsFirstFourBytes := by
  unfold Obligations.ChecksumIsFirstFourBytes
  intro c s
  apply List.ext_getElem
  · simp
  · intro i hi _
    rw [length_cksum] at hi
    interval_cases i <;> simp [cksum]

/-- Settles O15: the empty region is in range and held wherever it starts (R69). -/
theorem cksumOfNothing : Obligations.CksumOfNothing := by
  unfold Obligations.CksumOfNothing
  intro s hlen
  have hzero : s.ops.payLen.toNat = 0 := by rw [hlen]; rfl
  exact exec_cksum_of_holdsBytes (p := []) (.inl hzero) hzero.symm fun _ hi => absurd hi (Nat.not_lt_zero _)

/-- Settles O16: both ways CKSUM answers a next state complete it, and one sets CKSUM_OUT. -/
theorem cksumLeavesTheRest : Obligations.CksumLeavesTheRest := by
  unfold Obligations.CksumLeavesTheRest
  intro s t h
  rw [exec] at h
  rcases execCksum_cases s with ⟨-, he⟩ | ⟨-, -, he⟩ | ⟨-, p, -, -, he⟩ <;> cases he.symm.trans h
  case inl => rfl
  case inr.inr => rfl

/-- Settles O18: VERIFY completes the state, and sets CKSUM_OUT only when message and payload are present. -/
theorem verifyLeavesTheRest : Obligations.VerifyLeavesTheRest := by
  unfold Obligations.VerifyLeavesTheRest
  intro s t m p h
  by_cases habsent : m = false ∨ p = false
  · cases (exec_verify_absent habsent s).symm.trans h
    exact ⟨rfl, fun _ => rfl⟩
  · obtain ⟨rfl, rfl⟩ : m = true ∧ p = true := by simpa using habsent
    refine ⟨?_, fun h => absurd h habsent⟩
    rw [exec] at h
    rcases execVerify_cases s with ⟨-, he⟩ | ⟨-, -, he⟩ | ⟨-, b, -, -, he⟩ <;> cases he.symm.trans h
    · rfl
    · rfl

/-- Settles O19: the changed state has the same region, the same bytes in it and the same HDR_CHECKSUM, so each outcome of
VERIFY on the state is its outcome on the changed one. -/
theorem verifyReadsNoMagicAndNoPayLen : Obligations.VerifyReadsNoMagicAndNoPayLen := by
  unfold Obligations.VerifyReadsNoMagicAndNoPayLen
  intro s m p len x0 x1 x2 x3 change
  obtain ⟨habsent, hheld, hrange, hunwritten⟩ := verifyMeaning (change s)
  by_cases hmp : m = false ∨ p = false
  · rw [exec_verify_absent hmp s]
    exact habsent m p hmp
  · obtain ⟨rfl, rfl⟩ : m = true ∧ p = true := by simpa using hmp
    simp only [exec] at hheld hrange hunwritten ⊢
    rcases execVerify_cases s with ⟨hout, he⟩ | ⟨hin, hun, he⟩ | ⟨hin, b, hl, hb, he⟩ <;> rw [he]
    · exact hrange hout
    · exact hunwritten hin hun
    · exact hheld b hin hl hb

/-- Settles O21: an absent message or payload and a mismatch both end in `complete(NONE, 0)` (R211), and IRQ follows IE as
DONE is 1. -/
theorem mismatchIsNoError : Obligations.MismatchIsNoError := by
  unfold Obligations.MismatchIsNoError
  constructor
  · intro s m p habsent
    exact ⟨_, exec_verify_absent habsent s, by simp [irq]⟩
  · intro s b hin hl hb hne
    have hvalid : (cksumReg params b == s.hdr.checksum) = false := beq_false_of_ne hne
    exact ⟨_, exec_verify_of_holdsBytes hin hl hb, by simp [irq, hvalid]⟩

end Sys2Proof.Machine

namespace Sys2Proof.Machine

/-! ### FRAME (42_framer.md) -/

/-- FRAME's output meets an input exactly when they share a byte (R171). -/
theorem frameOverlaps_iff (s : State) : FrameOverlaps s ↔
    ∃ x, InRegion x s.ops.dstAddr.toNat (frameLen s.ops.payLen) ∧
      (InRegion x s.ops.cmdAddr.toNat (nameLen s.ops.cmdLen) ∨ InRegion x s.ops.payAddr.toNat s.ops.payLen.toNat) := by
  rw [FrameOverlaps, overlap_iff, overlap_iff, ← exists_shared_byte_iff, ← exists_shared_byte_iff, ← exists_or]
  simp only [and_or_left]

/-- An output that shares no byte with an input passes FRAME's second check (R171). -/
theorem not_frameOverlaps_of_clear {s : State}
    (h : ∀ x, InRegion x s.ops.dstAddr.toNat (frameLen s.ops.payLen) →
      ¬ InRegion x s.ops.cmdAddr.toNat (nameLen s.ops.cmdLen) ∧ ¬ InRegion x s.ops.payAddr.toNat s.ops.payLen.toNat) :
    ¬ FrameOverlaps s := by
  rw [frameOverlaps_iff]
  rintro ⟨x, hx, hcmd | hpay⟩
  · exact (h x hx).1 hcmd
  · exact (h x hx).2 hpay

/-- Memory holds at most one name at an address: the one FRAME reads (R170). -/
theorem isName_unique {m : Memory} {a k : Nat} {name other : List Byte} (h : IsName m a k name)
    (h' : IsName m a k other) : name = other :=
  Option.some.inj ((nameBytes_of_isName h).symm.trans (nameBytes_of_isName h'))

/-- Where an unwritten byte comes before any zero byte there is no name (R170). -/
theorem not_isName_of_unwritten {m : Memory} {a n k : Nat} (hk : k < n) (hun : readByte m (a + k) = none)
    (hz : ∀ j, j < k → readByte m (a + j) ≠ some 0#8) (name : List Byte) : ¬ IsName m a n name := by
  rintro ⟨hheld, -, hle, hend⟩
  rcases Nat.lt_trichotomy k name.length with hin | rfl | hpast
  · rw [hheld k hin, List.getElem?_eq_none_iff] at hun
    omega
  · have hzero := hend.resolve_left hk.ne
    cases hun.symm.trans hzero
  · exact hz _ hpast (hend.resolve_left (by omega))

/-- The command field FRAME writes is the padded name (R170). -/
theorem cmdField_of_isName {m : Memory} {a : Nat} {len : Word} {name : List Byte} (h : IsName m a (nameLen len) name) :
    cmdField m a len = some (padName name) := by
  rw [cmdField, nameBytes_of_isName h, Option.map_some]

/-- The command field has 12 bytes, whatever the name (R170). -/
theorem length_padName_of_isName {m : Memory} {a : Nat} {len : Word} {name : List Byte}
    (h : IsName m a (nameLen len) name) : (padName name).length = 12 := by
  obtain ⟨-, -, hle, -⟩ := h
  exact length_padName (hle.trans (nameLen_le len))

/-- FRAME once its checks pass: UNINIT_READ where an input is missing, and else its message (R171). -/
theorem exec_frame_of_checks {s : State} (hr : FrameInRange s) (ho : ¬ FrameOverlaps s) :
    (exec .frame s = .fault .uninitRead ∧
      ((∀ name, ¬ IsName s.mem s.ops.cmdAddr.toNat (nameLen s.ops.cmdLen) name) ∨
        HasUnwritten s.mem s.ops.payAddr.toNat s.ops.payLen.toNat)) ∨
    ∃ name p, IsName s.mem s.ops.cmdAddr.toNat (nameLen s.ops.cmdLen) name ∧ p.length = s.ops.payLen.toNat ∧
      HoldsBytes s.mem s.ops.payAddr.toNat p ∧ exec .frame s = .next (framed name p s) := by
  rcases execFrame_cases s with ⟨hout, -⟩ | ⟨-, hover, -⟩ | ⟨-, -, hfault⟩ | ⟨-, -, hdone⟩
  · exact absurd hr hout
  · exact absurd hover ho
  · exact .inl hfault
  · exact .inr hdone

/-- FRAME without error has passed its range checks, read a name and a payload, and written its message (R171). -/
theorem exec_frame_success {s t : State} (h : exec .frame s = .next t) (herr : t.status.err = .none) :
    FrameInRange s ∧ ∃ name p, IsName s.mem s.ops.cmdAddr.toNat (nameLen s.ops.cmdLen) name ∧
      p.length = s.ops.payLen.toNat ∧ t = framed name p s := by
  rw [exec] at h
  rcases execFrame_cases s with ⟨-, he⟩ | ⟨-, -, he⟩ | ⟨-, -, he, -⟩ | ⟨hr, -, name, p, hn, hl, -, he⟩ <;>
    cases he.symm.trans h
  · cases herr
  · cases herr
  · exact ⟨hr, name, p, hn, hl, rfl⟩

/-- FRAME changes no byte outside its output region (R171). -/
theorem exec_frame_outside {s t : State} (h : exec .frame s = .next t) {x : Nat}
    (hx : ¬ InRegion x s.ops.dstAddr.toNat (frameLen s.ops.payLen)) : readByte t.mem x = readByte s.mem x := by
  by_contra hne
  obtain ⟨-, -, hin⟩ := exec_changes_byte h hne
  exact hx hin

/-- FRAME's output region is never empty, so in range it ends inside MEM (R171). -/
theorem dst_add_frameLen_le {s : State} (hr : FrameInRange s) :
    s.ops.dstAddr.toNat + frameLen s.ops.payLen ≤ 2 ^ params.memAw := by
  obtain ⟨-, -, hd⟩ := hr
  exact hd.resolve_left (by rw [frameLen]; omega)

theorem two_pow_memAw_le (c : Params) : 2 ^ c.memAw ≤ 2 ^ 31 := by
  rw [← c.memBytes_eq]
  exact c.memBytes_le

/-- The length of a message that fits in MEM is exact in 32 bits (R177). -/
theorem toNat_ofNat_frameLen {s : State} (hr : FrameInRange s) :
    (BitVec.ofNat 32 (frameLen s.ops.payLen)).toNat = frameLen s.ops.payLen := by
  have hfit := dst_add_frameLen_le hr
  have hmem := two_pow_memAw_le params
  rw [BitVec.toNat_ofNat]
  exact Nat.mod_eq_of_lt (by omega)

/-! ### The message FRAME leaves in MEM -/

theorem holdsBytes_memWrite (m : Memory) (a : Nat) (b : List Byte) : HoldsBytes (memWrite m a b) a b :=
  fun _ hi => readByte_memWrite_in m a b hi

/-- Memory that holds two byte strings one after the other holds each at its place. -/
theorem holdsBytes_of_append {m : Memory} {a : Nat} {b c : List Byte} (h : HoldsBytes m a (b ++ c)) :
    HoldsBytes m a b ∧ HoldsBytes m (a + b.length) c := by
  constructor
  · intro i hi
    rw [h i (by rw [List.length_append]; omega), List.getElem?_append_left hi]
  · intro i hi
    rw [Nat.add_assoc, h _ (by rw [List.length_append]; omega), List.getElem?_append_right (Nat.le_add_right _ _),
      Nat.add_sub_cancel_left]

/-- A byte of a string that memory holds is written (R47). -/
theorem isSome_readByte_of_holdsBytes {m : Memory} {a i : Nat} {b : List Byte} (h : HoldsBytes m a b)
    (hi : i < b.length) : (readByte m (a + i)).isSome = true := by
  simpa [h i hi] using hi

/-- FRAME leaves its wire message at DST_ADDR (R172). -/
theorem framed_holdsBytes (name p : List Byte) (s : State) :
    HoldsBytes (framed name p s).mem s.ops.dstAddr.toNat
      (wireMessage s.ops.magic (padName name) s.ops.payLen (cksum params p) p) :=
  holdsBytes_memWrite _ _ _

/-- The 24 header bytes of a wire message: all of it but the payload (30_encoding.md R97). -/
def wireHeader (magic : Word) (field : List Byte) (len : Word) (sum : List Byte) : List Byte :=
  unle32 magic ++ field ++ unle32 len ++ sum

theorem wireMessage_eq_append (magic : Word) (field : List Byte) (len : Word) (sum p : List Byte) :
    wireMessage magic field len sum p = wireHeader magic field len sum ++ p := rfl

theorem length_wireHeader (magic len : Word) {field sum : List Byte} (hf : field.length = 12) (hs : sum.length = 4) :
    (wireHeader magic field len sum).length = 24 := by
  simp [wireHeader, hf, hs]

/-- Parsing a wire header gives back the fields it was made of (R97, R103). -/
theorem headerOf_wireHeader (magic len : Word) {field sum : List Byte} (hf : field.length = 12)
    (hs : sum.length = 4) :
    (headerOf (wireHeader magic field len sum)).magic = magic ∧
      (headerOf (wireHeader magic field len sum)).dataLen = len ∧
      (headerOf (wireHeader magic field len sum)).checksum = le32 sum := by
  refine ⟨?_, ?_, ?_⟩ <;> simp [headerOf, wireHeader, slice, List.drop_append, List.drop_eq_nil_of_le,
    List.take_append, List.take_of_length_le, hf, hs]

/-- After FRAME the header stands at DST_ADDR and the payload right behind it (R172). -/
theorem framed_holds_header_payload (s : State) {name p : List Byte} (hf : (padName name).length = 12) :
    HoldsBytes (framed name p s).mem s.ops.dstAddr.toNat
        (wireHeader s.ops.magic (padName name) s.ops.payLen (cksum params p)) ∧
      HoldsBytes (framed name p s).mem (s.ops.dstAddr.toNat + 24) p := by
  have hmessage := framed_holdsBytes name p s
  rw [wireMessage_eq_append] at hmessage
  have hsplit := holdsBytes_of_append hmessage
  rwa [length_wireHeader _ _ hf (length_cksum _ _)] at hsplit

/-! ### FRAME's statements -/

/-- Settles O24: the first two of FRAME's outcomes. -/
theorem frameErrors : Obligations.FrameErrors := by
  unfold Obligations.FrameErrors
  intro s
  refine ⟨fun hout => ?_, fun hc hp hd hshared => ?_⟩
  · rcases execFrame_cases s with ⟨-, he⟩ | ⟨hr, -⟩ | ⟨hr, -⟩ | ⟨hr, -⟩
    · exact he
    all_goals exact absurd hr hout
  · have hr : FrameInRange s := ⟨hc, hp, hd⟩
    have ho : FrameOverlaps s := (frameOverlaps_iff s).mpr hshared
    rcases execFrame_cases s with ⟨hout, -⟩ | ⟨-, -, he⟩ | ⟨-, hno, -⟩ | ⟨-, hno, -⟩
    · exact absurd hr hout
    · exact he
    all_goals exact absurd ho hno

/-- Settles O25: with an input missing, FRAME cannot have read both a name and a payload. -/
theorem frameNeedsItsInputs : Obligations.FrameNeedsItsInputs := by
  unfold Obligations.FrameNeedsItsInputs
  intro s hc hp hd hclear hmissing
  rcases exec_frame_of_checks ⟨hc, hp, hd⟩ (not_frameOverlaps_of_clear hclear) with
    ⟨he, -⟩ | ⟨name, p, hn, hl, hb, -⟩
  · exact he
  · rcases hmissing with hun | ⟨k, hk, hun, hz⟩
    · exact absurd hun (not_hasUnwritten_of_holdsBytes hl hb)
    · exact absurd hn (not_isName_of_unwritten hk hun hz name)

/-- Settles O23: with both inputs held, FRAME reads those and no others, and writes their message. -/
theorem frameWritesMessage : Obligations.FrameWritesMessage := by
  unfold Obligations.FrameWritesMessage
  intro s name p hc hp hd hclear hname hlen hheld
  rcases exec_frame_of_checks ⟨hc, hp, hd⟩ (not_frameOverlaps_of_clear hclear) with
    ⟨-, hno | hun⟩ | ⟨name', p', hname', hlen', hheld', he⟩
  · exact absurd hname (hno name)
  · exact absurd hun (not_hasUnwritten_of_holdsBytes hlen hheld)
  · obtain rfl : name' = name := isName_unique hname' hname
    obtain rfl : p' = p := holdsBytes_unique (hlen'.trans hlen.symm) hheld' hheld
    exact ⟨_, he, framed_holdsBytes _ _ s, fun _ => exec_frame_outside he, rfl⟩

/-- Settles O29: the registers outcome by outcome, and MEM by what a command changes of it. -/
theorem frameLeavesTheRest : Obligations.FrameLeavesTheRest := by
  unfold Obligations.FrameLeavesTheRest
  intro s t h
  refine ⟨?_, fun _ => exec_frame_outside h⟩
  rw [exec] at h
  rcases execFrame_cases s with ⟨-, he⟩ | ⟨-, -, he⟩ | ⟨-, -, he, -⟩ | ⟨-, -, name, p, -, -, -, he⟩ <;>
    cases he.symm.trans h
  · rfl
  · rfl
  · rfl

/-- Settles O28: the output region lies in MEM, so its length is exact in 32 bits, and FRAME's message fills it. -/
theorem frameLengthIsExact : Obligations.FrameLengthIsExact := by
  unfold Obligations.FrameLengthIsExact
  intro s t h herr
  obtain ⟨hr, name, p, hn, hl, ht⟩ := exec_frame_success h herr
  have hfit := dst_add_frameLen_le hr
  have hout : t.outLen.toNat = frameLen s.ops.payLen := by
    rw [ht]
    exact toNat_ofNat_frameLen hr
  refine ⟨Nat.le_trans (Nat.le_add_left _ _) hfit, two_pow_memAw_le params, hout, fun i hi => ?_, fun x hx => ?_,
    fun hzero => ?_⟩
  · rw [hout, ← length_frame_message s (length_padName_of_isName hn) hl] at hi
    rw [ht]
    exact isSome_readByte_of_holdsBytes (framed_holdsBytes name p s) hi
  · rw [hout] at hx
    exact exec_frame_outside h hx
  · apply BitVec.eq_of_toNat_eq
    rw [hout, hzero]
    rfl

/-- Settles O26: the case of O28 in which OUT_LEN is 24. -/
theorem frameWithoutPayload : Obligations.FrameWithoutPayload := by
  unfold Obligations.FrameWithoutPayload
  intro s t h herr hzero
  obtain ⟨-, -, -, hwritten, houtside, hlen⟩ := frameLengthIsExact s t h herr
  have hout : t.outLen = 24#32 := hlen hzero
  have h24 : t.outLen.toNat = 24 := by
    rw [hout]
    rfl
  rw [h24] at hwritten houtside
  refine ⟨hwritten, hout, fun x hx => houtside x ?_, fun x hx => houtside x ?_⟩
  · rintro ⟨-, hlt⟩
    omega
  · rintro ⟨hle, -⟩
    omega

/-- Settles O27: twelve nonzero bytes are a name that needs no padding, and the three fields are parts of the message. -/
theorem frameTruncatesLongName : Obligations.FrameTruncatesLongName := by
  unfold Obligations.FrameTruncatesLongName
  constructor
  · intro m a len name hlen hl hz hb
    have hcap : nameLen len = 12 := Nat.min_eq_right hlen
    have hname : IsName m a (nameLen len) name := ⟨hb, hz, by omega, .inl (by omega)⟩
    rw [cmdField_of_isName hname]
    simp [padName, hl, zeros]
  · intro s t h herr
    obtain ⟨-, name, p, hn, -, rfl⟩ := exec_frame_success h herr
    have hf := length_padName_of_isName hn
    obtain ⟨hheader, -⟩ := framed_holds_header_payload s hf (p := p)
    obtain ⟨hupToLen, -⟩ := holdsBytes_of_append hheader
    obtain ⟨hupToField, hpayLen⟩ := holdsBytes_of_append hupToLen
    obtain ⟨hmagic, hfield⟩ := holdsBytes_of_append hupToField
    refine ⟨padName name, cmdField_of_isName hn, hf, hmagic, ?_, ?_⟩
    · rwa [length_unle32] at hfield
    · rwa [List.length_append, length_unle32, hf] at hpayLen

/-- PARSE over 24 bytes that MEM holds (40_header_parse.md R120). -/
theorem exec_parse_of_holdsBytes {s : State} {b : List Byte} (hin : InRange s.ops.srcAddr.toNat 24)
    (hl : b.length = 24) (hb : HoldsBytes s.mem s.ops.srcAddr.toNat b) :
    exec .parse s = .next (complete .none false (setHdr (headerOf b) s)) :=
  (outcome_of_each_region (execParse_cases s)).1 b hin hl hb

/-- Wherever MEM holds a wire header and its payload, and the header carries the payload's checksum, PARSE gives back the
header's fields and VERIFY then finds the payload valid (R120, R144). -/
theorem parse_then_verify_of_holdsBytes {s : State} {magic len : Word} {field p : List Byte} (hf : field.length = 12)
    (hl : p.length = len.toNat) (hsrc : InRange s.ops.srcAddr.toNat 24) (hpay : InRange s.ops.payAddr.toNat len.toNat)
    (hheader : HoldsBytes s.mem s.ops.srcAddr.toNat (wireHeader magic field len (cksum params p)))
    (hpayload : HoldsBytes s.mem s.ops.payAddr.toNat p) :
    ∃ u v, exec .parse s = .next u ∧ u.status.err = .none ∧ u.hdr.dataLen = len ∧
      u.hdr.checksum = cksumReg params p ∧ u.hdr.magic = magic ∧
      exec (.verify true true) u = .next v ∧ v.status.valid = true ∧ v.status.err = .none := by
  have hs := length_cksum params p
  obtain ⟨hmagic, hdataLen, hchecksum⟩ := headerOf_wireHeader magic len hf hs
  refine ⟨_, _, exec_parse_of_holdsBytes hsrc (length_wireHeader magic len hf hs) hheader, rfl, hdataLen, hchecksum,
    hmagic, exec_verify_of_holdsBytes (p := p) ?_ ?_ hpayload, ?_, rfl⟩
  · simpa [hdataLen] using hpay
  · simpa [hdataLen] using hl
  · simp [hchecksum, cksumReg]

/-- Settles O30: FRAME leaves the header at DST_ADDR and the payload 24 bytes on, an address that fits a register. -/
theorem frameParseVerifyRoundTrip : Obligations.FrameParseVerifyRoundTrip := by
  unfold Obligations.FrameParseVerifyRoundTrip
  intro s t h herr
  obtain ⟨hr, name, p, hn, hl, rfl⟩ := exec_frame_success h herr
  have hf := length_padName_of_isName hn
  obtain ⟨hheader, hpayload⟩ := framed_holds_header_payload s hf (p := p)
  have hfit : s.ops.dstAddr.toNat + (24 + s.ops.payLen.toNat) ≤ 2 ^ params.memAw := dst_add_frameLen_le hr
  have hmem := two_pow_memAw_le params
  have hpayAddr : (s.ops.dstAddr + 24#32).toNat = s.ops.dstAddr.toNat + 24 :=
    BitVec.toNat_add_of_lt (by simp only [BitVec.toNat_ofNat]; omega)
  refine parse_then_verify_of_holdsBytes hf hl (.inr ?_) (.inr ?_) hheader ?_
  · simp only
    omega
  · simp only [hpayAddr]
    omega
  · simpa only [hpayAddr] using hpayload

end Sys2Proof.Machine

namespace Sys2Proof.Machine

/-! ### Completion (60_exceptions.md R200, R211) -/

/-- Every command that ends completes with some code and VALID bit. The code is never ILLEGAL_CMD, and OVERLAP is FRAME's
alone (R202, R204); only VERIFY sets VALID (10_state.md R27); a command that fails is its completion and nothing else (R200). -/
theorem exec_completes {i : Instr} {s t : State} (h : exec i s = .next t) :
    ∃ e v, t.status = completedStatus e v ∧ e ≠ .illegalCmd ∧ (e = .overlap → i = .frame) ∧
      (v = true → i = .verify true true) ∧ (e ≠ .none → t = complete e v s) := by
  rcases exec_next_cases h with ⟨e, -, hlegal, hoverlap, rfl⟩ | ⟨-, b, rfl⟩ | ⟨-, b, rfl⟩ | ⟨m, p, -, rfl⟩ |
    ⟨hverify, v, b, rfl⟩ | ⟨-, name, p, -, -, -, rfl⟩
  case inl => exact ⟨e, false, rfl, hlegal, hoverlap, by simp, fun _ => rfl⟩
  case inr.inr.inr.inr.inl => exact ⟨.none, v, rfl, by simp, by simp, fun _ => hverify, absurd rfl⟩
  all_goals exact ⟨.none, false, rfl, by simp, by simp, by simp, absurd rfl⟩

/-- Settles O31: a failed command's state is `complete` of the state before. -/
theorem failedCommandWritesOnlyStatus : Obligations.FailedCommandWritesOnlyStatus := by
  unfold Obligations.FailedCommandWritesOnlyStatus
  intro i s t h
  obtain ⟨e, v, hst, -, -, -, hfailed⟩ := exec_completes h
  refine ⟨by simp [hst], by simp [hst], fun herr => ?_⟩
  obtain rfl := hfailed (by simpa [hst] using herr)
  rfl

/-- Settles O32: what `completedStatus` leaves of the code and the VALID bit a command can complete with. -/
theorem completionFlags : Obligations.CompletionFlags := by
  unfold Obligations.CompletionFlags
  intro i s t h
  obtain ⟨e, v, hst, hlegal, hoverlap, hverify, -⟩ := exec_completes h
  rw [hst]
  refine ⟨rfl, rfl, fun herr => ?_, fun hvalid => ?_, hlegal, hoverlap⟩
  · exact Bool.eq_false_iff.mpr fun hvalid => herr (completedStatus_valid hvalid)
  · obtain rfl := completedStatus_valid hvalid
    exact hverify (by simpa using hvalid)

/-! ### Where a command faults (R206, R209; 20_memory.md R71) -/

/-- An unwritten byte of a region in range is a byte of MEM (R69). -/
theorem exists_unwritten_in_mem {m : Memory} {a n : Nat} (hin : InRange a n) (h : HasUnwritten m a n) :
    ∃ x, x < 2 ^ params.memAw ∧ readByte m x = none ∧ InRegion x a n := by
  obtain ⟨k, hk, hun⟩ := h
  have hfit : a + n ≤ 2 ^ params.memAw := hin.resolve_left (by omega)
  exact ⟨a + k, by omega, hun, by omega, by omega⟩

/-- FRAME stops in a command name only at an unwritten byte (42_framer.md R170). -/
theorem hasUnwritten_of_nameBytes {m : Memory} {a k : Nat} (h : nameBytes m a k = none) : HasUnwritten m a k := by
  induction k generalizing a with
  | zero => cases h
  | succ k ih =>
    cases hb : readByte m a with
    | none => exact ⟨0, by omega, hb⟩
    | some b =>
      have hrest : nameBytes m (a + 1) k = none := by
        by_cases hz : b = 0#8
        · simp [nameBytes, hb, hz] at h
        · simpa [nameBytes, hb, hz] using h
      obtain ⟨j, hj, hun⟩ := ih hrest
      exact ⟨j + 1, by omega, by rw [← hun, Nat.add_right_comm, Nat.add_assoc]⟩

/-- Where memory holds no name, a byte of the name's region is unwritten (R170). -/
theorem hasUnwritten_of_no_name {m : Memory} {a k : Nat} (h : ∀ name, ¬ IsName m a k name) : HasUnwritten m a k :=
  hasUnwritten_of_nameBytes (Option.eq_none_iff_forall_ne_some.mpr fun name hn => h name (isName_of_nameBytes hn))

/-- Settles O33: command by command, the one outcome that is a fault. -/
theorem commandFaultsOnlyOnUnwrittenByte : Obligations.CommandFaultsOnlyOnUnwrittenByte := by
  unfold Obligations.CommandFaultsOnlyOnUnwrittenByte
  intro i s f h
  have hf : f = .uninitRead := by
    rcases exec_next_or_uninitRead i s with ⟨t, he⟩ | he <;> cases he.symm.trans h
    rfl
  refine ⟨hf, ?_⟩
  cases i with
  | parse =>
    rcases execParse_cases s with ⟨-, he⟩ | ⟨hin, hun, -⟩ | ⟨-, b, -, -, he⟩
    · cases he.symm.trans h
    · exact exists_unwritten_in_mem hin hun
    · cases he.symm.trans h
  | cksum =>
    rcases execCksum_cases s with ⟨-, he⟩ | ⟨hin, hun, -⟩ | ⟨-, p, -, -, he⟩
    · cases he.symm.trans h
    · exact exists_unwritten_in_mem hin hun
    · cases he.symm.trans h
  | verify m p =>
    cases hmp : m && p with
    | false => cases (execVerify_absent hmp s).symm.trans h
    | true =>
      obtain ⟨rfl, rfl⟩ : m = true ∧ p = true := by simpa using hmp
      rcases execVerify_cases s with ⟨-, he⟩ | ⟨hin, hun, -⟩ | ⟨-, p, -, -, he⟩
      · cases he.symm.trans h
      · obtain ⟨x, hx, hnone, hreg⟩ := exists_unwritten_in_mem hin hun
        exact ⟨x, hx, hnone, rfl, rfl, hreg⟩
      · cases he.symm.trans h
  | frame =>
    rcases execFrame_cases s with ⟨-, he⟩ | ⟨-, -, he⟩ | ⟨⟨hcmd, hpay, -⟩, -, -, hname | hun⟩ |
      ⟨-, -, name, p, -, -, -, he⟩
    · cases he.symm.trans h
    · cases he.symm.trans h
    · obtain ⟨x, hx, hnone, hreg⟩ := exists_unwritten_in_mem hcmd (hasUnwritten_of_no_name hname)
      exact ⟨x, hx, hnone, .inl hreg⟩
    · obtain ⟨x, hx, hnone, hreg⟩ := exists_unwritten_in_mem hpay hun
      exact ⟨x, hx, hnone, .inr hreg⟩
    · cases he.symm.trans h

/-! ### Bus errors (R207) -/

/-- A host access gets a bus error exactly when the port does not accept it: an accepted one finds its register, and on the
buffer port it can only meet an unwritten byte (R206, R208). -/
theorem step_busError_iff {s : State} {a : Access} {es : List Event} (he : s.events = .access a :: es) :
    step s = .fault .busError ↔ ¬ accepts params a s = true := by
  refine ⟨fun h ha => ?_, fun h => step_rejected he (Bool.not_eq_true _ ▸ h)⟩
  rw [step_access he] at h
  cases hp : a.port with
  | reg =>
    obtain ⟨r, op, rfl⟩ := reg_access_of_accepts hp ha
    rw [hostAccess_reg (by simpa using ha)] at h
    cases op <;> cases h
  | mem =>
    obtain ⟨port, w, off, op⟩ := a
    obtain rfl : port = .mem := hp
    rw [hostAccess_mem (by simpa using ha)] at h
    cases op with
    | read =>
      simp only [bufAccess] at h
      split at h <;> cases h
    | write v => cases h

/-- The mapped offsets are those of the register map's rows (10_state.md R22). -/
theorem isSome_ofOffset_iff (off : Nat) :
    (RegName.ofOffset off).isSome = true ↔ off ∈ RegName.all.map RegName.offset := by
  simp [RegName.ofOffset, List.find?_isSome]

/-- What R45 allows while BUSY on the register port, by the offset. -/
theorem allowedWhileBusy_offset_iff (w : Width) (off : Nat) (op : BusOp) :
    allowedWhileBusy ⟨.reg, w, off, op⟩ = true ↔ off = 0x000 ∧ op = .read ∨ off = 0x004 ∨ off = 0x008 := by
  constructor
  · intro h
    cases hr : RegName.ofOffset off with
    | none => simp [allowedWhileBusy, hr] at h
    | some r =>
      obtain rfl := offset_of_ofOffset hr
      rcases (allowedWhileBusy_reg_iff w r op).mp h with ⟨rfl, hop⟩ | rfl | rfl
      · exact .inl ⟨rfl, hop⟩
      · exact .inr (.inl rfl)
      · exact .inr (.inr rfl)
  · rintro (⟨rfl, rfl⟩ | rfl | rfl) <;> rfl

/-- What the register port accepts (R65, R207). -/
theorem accepts_reg_iff (w : Width) (off : Nat) (op : BusOp) (s : State) :
    accepts params ⟨.reg, w, off, op⟩ s = true ↔
      s.rst = false ∧ w = .w32 ∧ off % 4 = 0 ∧ off ∈ RegName.all.map RegName.offset ∧
        (s.status.busy = false ∨ (off = 0x000 ∧ op = .read ∨ off = 0x004 ∨ off = 0x008)) := by
  rw [accepts_iff, allowedWhileBusy_offset_iff, ← isSome_ofOffset_iff]
  simp [Access.shapeOk, insideSpace, and_assoc]

/-- What the buffer port accepts (20_memory.md R63, R207). -/
theorem accepts_mem_iff (w : Width) (off : Nat) (op : BusOp) (s : State) :
    accepts params ⟨.mem, w, off, op⟩ s = true ↔
      s.rst = false ∧ off % w.bytes = 0 ∧ off + w.bytes ≤ 2 ^ params.memAw ∧ s.status.busy = false := by
  rw [accepts_iff]
  simp [Access.shapeOk, insideSpace, allowedWhileBusy, Params.memBytes_eq]

/-- Settles O46: port by port, the negation of what the port accepts. -/
theorem busErrorExactly : Obligations.BusErrorExactly := by
  unfold Obligations.BusErrorExactly
  rintro s ⟨port, w, off, op⟩ es he
  rw [step_busError_iff he]
  cases port with
  | reg =>
    rw [accepts_reg_iff]
    simp only [not_and_or, not_or, Bool.not_eq_false, reduceCtorEq, false_and, or_false, true_and, ne_eq]
    rfl
  | mem =>
    rw [accepts_mem_iff]
    simp only [not_and_or, Bool.not_eq_false, Nat.not_le, reduceCtorEq, false_and, false_or, true_and, ne_eq]

/-! ### The engine's turn and the interrupt (R211, R213, R223) -/

/-- Settles O5: a step with the engine next, or with nothing due, is the engine's turn, and the engine is BUSY. -/
theorem stepRunsLatchedCommand : Obligations.StepRunsLatchedCommand := by
  unfold Obligations.StepRunsLatchedCommand
  refine fun s hr hb => ⟨fun es he => ?_, fun he => ?_⟩
  · rw [step_cons he]
    exact engineTurn_busy (s := setEvents es s) hb hr exec
  · rw [step_nil he]
    exact engineTurn_busy hb hr exec

/-- Settles O7: the same turns, of an IDLE engine. -/
theorem idleEngineChangesNothing : Obligations.IdleEngineChangesNothing := by
  unfold Obligations.IdleEngineChangesNothing
  refine fun s hb => ⟨fun es he => ?_, fun he => ?_⟩
  · rw [step_cons he]
    exact engineTurn_idle (s := setEvents es s) (.inl hb) exec
  · rw [step_nil he]
    exact engineTurn_idle (.inl hb) exec

/-- IRQ is low while DONE is 0 (R213). -/
theorem irq_of_not_done {s : State} (h : s.status.done = false) : irq s = false := by
  rw [irq, h, Bool.and_false]

/-- Settles O36: completion sets DONE and keeps IE, the two writes leave DONE 0, and a read reaches neither. -/
theorem interruptLevel : Obligations.InterruptLevel := by
  unfold Obligations.InterruptLevel
  refine ⟨fun i s t h => ?_, fun s es hidle => ?_, fun s i es hidle => ?_, fun s es hidle => ?_⟩
  · obtain ⟨hie, -⟩ := engineWritesOnlyItsResults i s t h
    rw [irq, exec_sets_done h, Bool.and_true, hie]
  · exact ⟨_, statusWriteClearsDone s _ es hidle, irq_of_not_done rfl⟩
  · exact ⟨_, step_wr_cmd_legal hidle (decode_encode i), irq_of_not_done rfl⟩
  · exact ⟨_, step_rd_idle hidle, rfl⟩

end Sys2Proof.Machine

namespace Sys2Proof.Machine

/-! ### Waiting for a command, and what the host reaches meanwhile (70_reset_and_hazards.md R246, R254) -/

/-- Settles O9: each poll is one step, and the step with nothing due is the engine's turn. -/
theorem waitLoopEndsInCompletion : Obligations.WaitLoopEndsInCompletion := by
  unfold Obligations.WaitLoopEndsInCompletion
  exact fun n s hr hb he => stepsFrom_wait_completes n hr hb he

/-- Everything a host access to a BUSY block can do: return a value, or write CTRL or STATUS (10_state.md R45). -/
theorem hostAccess_busy_next {a : Access} {s t : State} (hb : s.status.busy = true)
    (h : hostAccess params a s = .next t) :
    (∃ v, t = giveHost v s) ∨ ∃ v, t = writeReg s v .ctrl ∨ t = writeReg s v .status := by
  obtain ⟨hacc, -⟩ := hostAccess_next h
  obtain ⟨r, op, rfl, hallowed⟩ := accepts_busy hb hacc
  rw [hostAccess_reg hacc] at h
  cases op with
  | read => exact .inl ⟨_, (Host.Outcome.next.inj h).symm⟩
  | write v =>
    refine .inr ⟨v, ?_⟩
    rcases hallowed with ⟨-, hread⟩ | rfl | rfl
    · cases hread
    · exact .inl (Host.Outcome.next.inj h).symm
    · exact .inr (Host.Outcome.next.inj h).symm

/-- A step that answers at a host access, of a port or of a platform address, is that of an access on a port (20_memory.md R61). -/
theorem step_host_next {s t : State} {e : Event} {es : List Event} (he : s.events = e :: es) (h : step s = .next t)
    (hhost : (∃ a, e = .access a) ∨ ∃ addr w op, e = .platform addr w op) :
    ∃ a, hostAccess params a (setEvents es s) = .next t := by
  rcases hhost with ⟨a, rfl⟩ | ⟨addr, w, op, rfl⟩
  · exact ⟨a, step_access he ▸ h⟩
  · rw [step_cons he, runEvent] at h
    obtain ⟨a, -, ha⟩ := platformAccess_next h
    exact ⟨a, ha⟩

/-- Settles O55: a read, and a write of CTRL or STATUS, reach none of the command's inputs and results, nor BUSY. -/
theorem inputsFixedWhileBusy : Obligations.InputsFixedWhileBusy := by
  unfold Obligations.InputsFixedWhileBusy
  rintro s t e es ⟨-, hb, he⟩ h hhost
  obtain ⟨a, ha⟩ := step_host_next he h hhost
  rcases hostAccess_busy_next (s := setEvents es s) hb ha with ⟨v, rfl⟩ | ⟨v, rfl | rfl⟩ <;>
    exact ⟨rfl, rfl, rfl, rfl, rfl, rfl, hb⟩

/-! ### Reset (R240, R241) -/

/-- Reset leaves every register and every byte of MEM at its reset value, whatever the level of RST (R240). -/
theorem atReset_blockReset (level : Bool) (s : State) : AtReset (blockReset level s) :=
  ⟨rfl, rfl, rfl, rfl, rfl, rfl, readByte_nil⟩

/-- A step at an assertion of RST. -/
theorem step_assertRst {s : State} {es : List Event} (he : s.events = .assertRst :: es) :
    step s = .next (blockReset true (setEvents es s)) := step_cons he

/-- A step at a release of RST while it is asserted. -/
theorem step_releaseRst {s : State} {es : List Event} (hr : s.rst = true) (he : s.events = .releaseRst :: es) :
    step s = .next (blockReset false (setEvents es s)) := by
  rw [step_cons he, runEvent, releaseReset, setEvents_rst, if_pos hr]

/-- RST asserted and then released is one reset, with the events after the release due (R240). -/
theorem stepsFrom_assert_release {s : State} {es : List Event} (he : s.events = .assertRst :: .releaseRst :: es) :
    stepsFrom 2 s = .next (blockReset false (setEvents es s)) := by
  rw [stepsFrom_next (step_assertRst he), stepsFrom_one, step_releaseRst (es := es) rfl rfl]
  rfl

/-- Settles O57: either edge resets the block, and in reset no port accepts an access and the engine has no step. -/
theorem resetFromAnyState : Obligations.ResetFromAnyState := by
  unfold Obligations.ResetFromAnyState
  refine ⟨fun s es he => ?_, fun s a es hr he => ?_, fun s es hr he => ?_⟩
  · exact ⟨_, _, step_assertRst he, rfl, atReset_blockReset _ _, stepsFrom_assert_release he, rfl,
      atReset_blockReset _ _, rfl, rfl⟩
  · exact (busErrorExactly s a es he).mpr (.inl hr)
  · rw [step_cons he]
    exact engineTurn_idle (s := setEvents es s) (.inr hr) exec

end Sys2Proof.Machine
